-- ==== Sys2Proof/Word.lean ====
section
/-! DEFINITION. The widths ACC's values have (00_scope.md R6, R10; 30_encoding.md R60, R65). -/

namespace Sys2Proof

/-- A command word, a result, the status word: 32 bits (R21, R22, R60). -/
abbrev Word := BitVec 32

/-- The sensor's configuration word, CW_WIDTH = 16 bits (R6). -/
abbrev ConfigWord := BitVec 16

/-- A raw angle, RAW_BITS = 12 bits, so always in [0, STEPS_PER_REV) (R4, R63). -/
abbrev RawAngle := BitVec 12

/-- A step count, 13 bits, so that STEPS_PER_REV itself can be encoded (R64). -/
abbrev StepCount := BitVec 13

/-- A field value as a command carries it, 3 bits, the widest field (R62). -/
abbrev FieldValue := BitVec 3

end Sys2Proof
end

