-- ==== Sys2Proof/Syntax.lean ====
section
/-! DEFINITION. The commands of ACC, one constructor a row of spec/opcode_table.json, and the assembly
language of 30_encoding.md R72 and R73. -/

namespace Sys2Proof

/-- The closed set of named fields of a ConfigWord (00_scope.md R7). -/
inductive Field where
  /-- SlowFilter -/
  | sf
  /-- FastFilterThreshold -/
  | fth
  /-- PowerMode -/
  | pm
deriving DecidableEq, Repr

/-- The field selector FSEL of a command: a named field, or the reserved code 3, which decodes and raises
ILLEGAL_FIELD when the command executes (30_encoding.md R62, R69). -/
inductive FieldSel where
  | named (f : Field)
  | reserved
deriving DecidableEq, Repr

/-- The mnemonics of the opcode map (30_encoding.md R66). -/
inductive Mnemonic where
  | getf | setf | mask | llm | s2d | rel
deriving DecidableEq, Repr

/-- ACC's commands with their operands, in the order of the decoder's results (30_encoding.md R71). The operand
types are the operand widths of R65, so every term spells a command word. -/
inductive Instr where
  /-- GETF: extract a field (40_codec.md R82). -/
  | getf (fsel : FieldSel) (word : ConfigWord)
  /-- SETF: insert a field (40_codec.md R83). -/
  | setf (val : FieldValue) (fsel : FieldSel) (word : ConfigWord)
  /-- MASK: a field's mask (40_codec.md R84). -/
  | mask (fsel : FieldSel)
  /-- LLM: the low-latency configuration word (40_codec.md R85). -/
  | llm (word : ConfigWord)
  /-- S2D: steps to degrees (41_angle.md R101). -/
  | s2d (steps : StepCount)
  /-- REL: signed shortest displacement from the axis center (41_angle.md R102). -/
  | rel (center raw : RawAngle)
deriving DecidableEq, Repr

/-- The mnemonic of a command. -/
def Instr.mnemonic : Instr → Mnemonic
  | .getf _ _ => .getf
  | .setf _ _ _ => .setf
  | .mask _ => .mask
  | .llm _ => .llm
  | .s2d _ => .s2d
  | .rel _ _ => .rel

/-- A `field` operand of assembly: one of the symbols SF, FTH, PM, or a number (30_encoding.md R72). -/
inductive AsmField where
  | named (f : Field)
  | number (n : Nat)
deriving DecidableEq, Repr

/-- One line of assembly, its operands in the written order and not yet checked for width (30_encoding.md R72);
the last three are the pseudo-instructions of R73. -/
inductive AsmLine where
  | getf (word : Nat) (field : AsmField)
  | setf (word : Nat) (field : AsmField) (value : Nat)
  | mask (field : AsmField)
  | llm (word : Nat)
  | s2d (steps : Nat)
  | rel (raw center : Nat)
  | clrf (word : Nat) (field : AsmField)
  | fdis (word : Nat)
  | absdeg (raw : Nat)
deriving DecidableEq, Repr

end Sys2Proof
end

