-- ==== Sys2Proof/Config.lean ====
section
/-! DEFINITION. The implementation parameters of 00_scope.md R4 to R9 and the values the spec leaves open. -/

namespace Sys2Proof

/-- One field descriptor: bit offset and width (00_scope.md R7). -/
structure FieldDescr where
  off : Nat
  width : Nat
deriving DecidableEq, Repr

/-- A field table: one descriptor for each named field (00_scope.md R7). -/
structure FieldTable where
  sf : FieldDescr
  fth : FieldDescr
  pm : FieldDescr
deriving DecidableEq, Repr

/-- The descriptor of a field. Every command that takes a field reads it here (40_codec.md R80). -/
def FieldTable.get (t : FieldTable) : Field → FieldDescr
  | .sf => t.sf
  | .fth => t.fth
  | .pm => t.pm

namespace Config

/-- STEPS_PER_REV, N = 4096 (00_scope.md R4). -/
def stepsPerRev : Int := 4096

/-- HALF = N / 2 = 2048 (00_scope.md R4). -/
def half : Int := 2048

/-- K_DEG = 45, the one constant of every conversion to degrees (00_scope.md R5; 41_angle.md R107). -/
def kDeg : Int := 45

/-- DEG_FRAC = 9, the fraction bits of DEGQ (00_scope.md R5; 41_angle.md R100). -/
def degFrac : Nat := 9

/-- The field table in force: OFF_SF = 8, OFF_FTH = 10, OFF_PM = 0, widths 2, 3, 2 (00_scope.md R7).
R7 itself takes the offsets from general knowledge of the AS5600 (UNVERIFIED, log 5). -/
def fieldTable : FieldTable := ⟨⟨8, 2⟩, ⟨10, 3⟩, ⟨0, 2⟩⟩

/-- LLM_SF = 0, the "minimum-settling" SlowFilter value (00_scope.md R9; 90_conflicts.md C5;
UNVERIFIED, log 4). -/
def llmSf : FieldValue := 0

/-- The open choice of LLM_FTH: which of the seven nonzero codes is the "most aggressive" one.
A free value (log 3). -/
opaque llmFthIndex : Fin 7

/-- LLM_FTH, open with 1 <= LLM_FTH <= 7 (00_scope.md R9). -/
def llmFth : FieldValue := BitVec.ofNat 3 (llmFthIndex.val + 1)

/-- What RES holds between power-up and the first reset: unspecified (10_state.md R30), a free value (log 8). -/
opaque powerUpRes : Word

/-- What STAT.ERR holds between power-up and the first reset: unspecified (10_state.md R30), a free value (log 8). -/
opaque powerUpErr : BitVec 2

end Config

end Sys2Proof
end

