-- ==== Sys2Proof/Machine/Operands.lean ====
section
/-! DEFINITION. The operand forms of ACC's commands: a field of a ConfigWord through its descriptor
(40_codec.md R80, R82, R83) and a step count through the degree format DEGQ (41_angle.md R100, R102). -/

namespace Sys2Proof

/-- `ones(w)` = 2^w - 1, as a 16-bit value (00_scope.md R10). -/
def ones (w : Nat) : ConfigWord := BitVec.ofNat 16 (2 ^ w - 1)

/-- `mask(f) = ones(w(f)) << off(f)` (40_codec.md R80). -/
def FieldDescr.mask (d : FieldDescr) : ConfigWord := ones d.width <<< d.off

/-- `keep(f) = NOT mask(f)` (40_codec.md R80). -/
def FieldDescr.keep (d : FieldDescr) : ConfigWord := ~~~d.mask

/-- The value a field holds in a word: `(word >> off) AND ones(w)` (40_codec.md R82). -/
def FieldDescr.extract (d : FieldDescr) (word : ConfigWord) : ConfigWord :=
  (word >>> d.off) &&& ones d.width

/-- The word with one field replaced: `(word AND keep) OR (val << off)` (40_codec.md R83). -/
def FieldDescr.insert (d : FieldDescr) (word : ConfigWord) (val : FieldValue) : ConfigWord :=
  (word &&& d.keep) ||| (val.setWidth 16 <<< d.off)

/-- Whether a value fits the field's width: not `val >= 2^w` (40_codec.md R83). -/
def FieldDescr.fits (d : FieldDescr) (val : FieldValue) : Bool := decide (val.toNat < 2 ^ d.width)

/-- The low-latency word: SF <- LLM_SF, then FTH <- LLM_FTH (40_codec.md R85), over any table and any pair of
values, so that a claim can be made over the parameters. -/
def FieldTable.lowLatency (t : FieldTable) (llmSf llmFth : FieldValue) (word : ConfigWord) : ConfigWord :=
  t.fth.insert (t.sf.insert word llmSf) llmFth

/-- The DEGQ word of a signed step count: `(K_DEG * steps) mod 2^32` (41_angle.md R100, R102). S2D and REL both
convert with it and with nothing else (R107). -/
def degq (steps : Int) : Word := BitVec.ofInt 32 (Config.kDeg * steps)

/-- The value of a DEGQ word in degrees: `sint_32(q) / 2^9` (00_scope.md R12; 41_angle.md R100). -/
def degrees (q : Word) : ℚ := (q.toInt : ℚ) / 2 ^ Config.degFrac

/-- The signed shortest displacement in steps: `((raw - center + HALF) mod N) - HALF` with floor modulo
(41_angle.md R102; `Int.emod` by a positive modulus is the floor modulo of 00_scope.md R10). -/
def displacement (raw center : RawAngle) : Int :=
  ((raw.toNat : Int) - center.toNat + Config.half) % Config.stepsPerRev - Config.half

end Sys2Proof
end

