-- ==== Sys2Proof/Decode.lean ====
section
/-! DEFINITION. The decoder, total on every command word (30_encoding.md R60 to R71), the opcode map (R66), and the
encoder. ACC moves no bytes (20_memory.md R44): a command is one 32-bit number. -/

namespace Sys2Proof

/-- FSEL's four codes: 0 SF, 1 FTH, 2 PM, 3 reserved (30_encoding.md R62; 00_scope.md R7). -/
def FieldSel.ofBits (b : BitVec 2) : FieldSel :=
  if b = 0 then .named .sf
  else if b = 1 then .named .fth
  else if b = 2 then .named .pm
  else .reserved

/-- The code of a field selector. -/
def FieldSel.bits : FieldSel → BitVec 2
  | .named .sf => 0
  | .named .fth => 1
  | .named .pm => 2
  | .reserved => 3

/-- Why a word spells no command. Both raise ILLEGAL_CMD (30_encoding.md R67, R68). -/
inductive DecodeError where
  /-- OP = 000 or OP = 111 (R68). -/
  | reservedOpcode (op : BitVec 3)
  /-- A nonzero bit in a reserved-zero field of the named command's row (R67). -/
  | reservedZeroBits (m : Mnemonic)
deriving DecidableEq, Repr

/-- Field OP = cmd[31:29] (30_encoding.md R61). -/
def opField (c : Word) : BitVec 3 := c.extractLsb' 29 3

/-- Field VAL = cmd[20:18] of format F (30_encoding.md R62). -/
def valField (c : Word) : FieldValue := c.extractLsb' 18 3

/-- Field FSEL = cmd[17:16] of format F (30_encoding.md R62). -/
def fselField (c : Word) : FieldSel := .ofBits (c.extractLsb' 16 2)

/-- Field WORD = cmd[15:0] of format F (30_encoding.md R62). -/
def wordField (c : Word) : ConfigWord := c.extractLsb' 0 16

/-- Field CENTER = cmd[23:12] of format A (30_encoding.md R63). -/
def centerField (c : Word) : RawAngle := c.extractLsb' 12 12

/-- Field RAW = cmd[11:0] of format A (30_encoding.md R63). -/
def rawField (c : Word) : RawAngle := c.extractLsb' 0 12

/-- Field STEPS = cmd[12:0] of format S (30_encoding.md R64). -/
def stepsField (c : Word) : StepCount := c.extractLsb' 0 13

/-- The result of one row of the decoder: a command if the row's reserved bits are zero (30_encoding.md R67). -/
def rowResult (zero : Bool) (i : Instr) : Except DecodeError Instr :=
  if zero then .ok i else .error (.reservedZeroBits i.mnemonic)

/-- The decoder of 30_encoding.md R71. -/
def decode (c : Word) : Except DecodeError Instr :=
  if opField c = 0b001 then
    rowResult (c.extractLsb' 18 11 == 0) (.getf (fselField c) (wordField c))
  else if opField c = 0b010 then
    rowResult (c.extractLsb' 21 8 == 0) (.setf (valField c) (fselField c) (wordField c))
  else if opField c = 0b011 then
    rowResult (c.extractLsb' 18 11 == 0 && c.extractLsb' 0 16 == 0) (.mask (fselField c))
  else if opField c = 0b100 then
    rowResult (c.extractLsb' 16 13 == 0) (.llm (wordField c))
  else if opField c = 0b101 then
    rowResult (c.extractLsb' 13 16 == 0) (.s2d (stepsField c))
  else if opField c = 0b110 then
    rowResult (c.extractLsb' 24 5 == 0) (.rel (centerField c) (rawField c))
  else .error (.reservedOpcode (opField c))

/-- Format F, from OP down to WORD (30_encoding.md R62). -/
def formatF (op : BitVec 3) (val : FieldValue) (fsel : FieldSel) (word : ConfigWord) : Word :=
  op ++ (0 : BitVec 8) ++ val ++ fsel.bits ++ word

/-- Format A (30_encoding.md R63). -/
def formatA (op : BitVec 3) (center raw : RawAngle) : Word :=
  op ++ (0 : BitVec 5) ++ center ++ raw

/-- Format S (30_encoding.md R64). -/
def formatS (op : BitVec 3) (steps : StepCount) : Word :=
  op ++ (0 : BitVec 16) ++ steps

/-- The command word of a command (30_encoding.md R62 to R66). Where a format's field is no operand of the command
it is zero; FSEL = 0 is the code of SF. -/
def encode : Instr → Word
  | .getf fsel word => formatF 0b001 0 fsel word
  | .setf val fsel word => formatF 0b010 val fsel word
  | .mask fsel => formatF 0b011 0 fsel 0
  | .llm word => formatF 0b100 0 (.named .sf) word
  | .s2d steps => formatS 0b101 steps
  | .rel center raw => formatA 0b110 center raw

/-- One row of the opcode map (30_encoding.md R66); `mnemonic` is none for the two reserved rows. -/
structure OpcodeRow where
  mnemonic : Option Mnemonic
  value : Word
  mask : Word
deriving DecidableEq, Repr

/-- "A word w selects a mnemonic when (w AND mask) = match" (30_encoding.md R66). -/
def OpcodeRow.selects (r : OpcodeRow) (w : Word) : Bool := w &&& r.mask == r.value

/-- The row of a mnemonic (30_encoding.md R66; spec/opcode_table.json). -/
def Mnemonic.row : Mnemonic → OpcodeRow
  | .getf => ⟨some .getf, 0x20000000, 0xFFFC0000⟩
  | .setf => ⟨some .setf, 0x40000000, 0xFFE00000⟩
  | .mask => ⟨some .mask, 0x60000000, 0xFFFCFFFF⟩
  | .llm => ⟨some .llm, 0x80000000, 0xFFFF0000⟩
  | .s2d => ⟨some .s2d, 0xA0000000, 0xFFFFE000⟩
  | .rel => ⟨some .rel, 0xC0000000, 0xFF000000⟩

/-- The opcode map of 30_encoding.md R66, its two reserved rows included. -/
def opcodeMap : List OpcodeRow :=
  [⟨none, 0x00000000, 0xE0000000⟩, Mnemonic.getf.row, Mnemonic.setf.row, Mnemonic.mask.row, Mnemonic.llm.row,
    Mnemonic.s2d.row, Mnemonic.rel.row, ⟨none, 0xE0000000, 0xE0000000⟩]

/-- The command the decoder reads from a word numbered as spec/opcode_table.json numbers it. Every command is 32
bits (30_encoding.md R60): a shorter row has zeros above it, a longer one is no command. -/
def decodeTableWord (nbits w : Nat) : Option Instr :=
  if nbits ≤ 32 then
    match decode (BitVec.ofNat 32 (w % 2 ^ nbits)) with
    | .ok i => some i
    | .error _ => none
  else none

end Sys2Proof
end

