-- ==== Sys2Proof/Machine/State.lean ====
section
/-! DEFINITION. ACC's state (10_state.md R20 to R30), the host's coming edges (20_memory.md R40, R49), reset, and
the reasons a step can stop. -/

namespace Sys2Proof.Machine

/-- The four values of STAT.ERR (10_state.md R23). -/
inductive ErrCode where
  /-- 0: no error since reset. -/
  | none
  /-- 1: SETF with a value that does not fit the field. -/
  | range
  /-- 2: GETF, SETF or MASK with FSEL = 3. -/
  | illegalField
  /-- 3: a reserved opcode or a nonzero reserved-zero bit. -/
  | illegalCmd
deriving DecidableEq, Repr

/-- The three errors a command can raise (60_exceptions.md R120). -/
inductive Cause where
  | range
  | illegalField
  | illegalCmd
deriving DecidableEq, Repr

/-- The two operating modes (10_state.md R25). -/
inductive Mode where
  | run
  | fault
deriving DecidableEq, Repr

/-- What the host drives on ACC's input ports at one rising edge of `clk` (20_memory.md R40). -/
structure EdgeInput where
  /-- `rst_n`: false is 0, reset. -/
  rstN : Bool
  /-- `cmd_valid` -/
  cmdValid : Bool
  /-- `cmd` -/
  cmd : Word
deriving DecidableEq, Repr

/-- ACC's two registers (10_state.md R20), and the host's coming edges as the model's own plain data (log 1).
STAT is assembled from `err` in Flags.lean: its other bits are no storage (R22, R24). -/
structure State where
  /-- RES (R21). -/
  res : Word
  /-- STAT.ERR (R22, R23). -/
  err : ErrCode
  /-- What the host drives at the coming edges, the next edge first. Not ACC state: the model's own field. -/
  edges : List EdgeInput
deriving DecidableEq, Repr

/-- The machine right after reset: RES = 0 and STAT.ERR = 0 (10_state.md R30; 70_reset_and_hazards.md R140), and
no edge listed (DESIGN CHOICE, log 1). -/
def State.reset : State := { res := 0x00000000, err := .none, edges := [] }

/-- The error code of two bits (10_state.md R23). -/
def ErrCode.ofBits (b : BitVec 2) : ErrCode :=
  if b = 0 then .none
  else if b = 1 then .range
  else if b = 2 then .illegalField
  else .illegalCmd

/-- The machine between power-up and the first reset, with a host that drives the given edges: RES and STAT.ERR
are unspecified (10_state.md R30; 70_reset_and_hazards.md R142), free values of Config (log 8). -/
def State.powerUp (edges : List EdgeInput) : State :=
  { res := Config.powerUpRes, err := .ofBits Config.powerUpErr, edges := edges }

/-- Why the machine stops. It has no constructor: ACC never stops. An error is recorded in STAT and the machine
goes on in the fault state (60_exceptions.md R123, R124), which is a next state (log 10). -/
inductive Fault where
deriving DecidableEq, Repr

/-- Why an instruction has no meaning in the model. -/
inductive Refusal where
  /-- Raised by an arm of exec whose instruction has no meaning yet (safe: nothing is claimed of it). No arm of this
  model raises it. -/
  | notModelled (mnemonic : String)
deriving DecidableEq, Repr

end Sys2Proof.Machine
end

