-- ==== Sys2Proof/Machine/Flags.lean ====
section
/-! DEFINITION. The status register STAT and what is read off it (10_state.md R22 to R26): the only flags ACC has. -/

namespace Sys2Proof.Machine

/-- The two bits of an error code (10_state.md R23). -/
def ErrCode.bits : ErrCode → BitVec 2
  | .none => 0
  | .range => 1
  | .illegalField => 2
  | .illegalCmd => 3

/-- The code an error records (60_exceptions.md R120). -/
def Cause.code : Cause → ErrCode
  | .range => .range
  | .illegalField => .illegalField
  | .illegalCmd => .illegalCmd

/-- STAT.FLT: hardwired to (ERR != 0), no storage (10_state.md R22, R24). -/
def State.flt (s : State) : Bool := s.err != .none

/-- STAT, 32 bits: [1:0] ERR, [2] FLT, [31:3] hardwired 0 (10_state.md R22). -/
def State.stat (s : State) : Word := (0 : BitVec 29) ++ BitVec.ofBool s.flt ++ s.err.bits

/-- The operating mode, read off STAT.ERR (10_state.md R25). -/
def State.mode (s : State) : Mode :=
  match s.err with
  | .none => .run
  | .range | .illegalField | .illegalCmd => .fault

end Sys2Proof.Machine
end

