-- ==== Sys2Proof/Machine/Ops.lean ====
section
/-! DEFINITION. The shared operations: writing a result, error entry (the one exception ACC takes), leaving the fault
state by reset, and the completion every command goes through (20_memory.md R46; 60_exceptions.md R122 to R125). -/

namespace Sys2Proof.Machine

/-- `RES <- v` (00_scope.md R11). -/
def State.writeRes (s : State) (v : Word) : State := { s with res := v }

/-- Error entry: `STAT.ERR <- c`, and nothing else changes (60_exceptions.md R123). -/
def State.errorEntry (s : State) (c : Cause) : State := { s with err := c.code }

/-- Reset, the only way out of the fault state: RES <- 0 and STAT.ERR <- 0 (60_exceptions.md R125;
70_reset_and_hazards.md R140). -/
def State.resetEdge (s : State) : State := { s with res := State.reset.res, err := State.reset.err }

/-- An edge with `cmd_valid` = 0: "the state does not change" (20_memory.md R41). -/
def State.idleEdge (s : State) : State := s

/-- The end of every command step (20_memory.md R46). In FAULT the command has no effect (60_exceptions.md R124); in
RUN it writes its result, or enters the error it raises (R123). -/
def complete (r : Except Cause Word) (s : State) : Host.Outcome State Fault Refusal :=
  match s.mode with
  | .fault => .next s
  | .run =>
    match r with
    | .ok v => .next (s.writeRes v)
    | .error c => .next (s.errorEntry c)

/-- A word that spells no command raises ILLEGAL_CMD, whatever the reason (30_encoding.md R67, R68). -/
def illegalCommand (_ : DecodeError) (s : State) : Host.Outcome State Fault Refusal :=
  complete (.error .illegalCmd) s

end Sys2Proof.Machine
end

