-- ==== Sys2Proof/Machine/Angle.lean ====
section
/-! DEFINITION. The angle converter: S2D and REL (41_angle.md R100 to R102). -/

namespace Sys2Proof.Machine

/-- S2D's result: `K_DEG * steps`, no wraparound at 4096 (41_angle.md R101). -/
def s2dResult (steps : StepCount) : Except Cause Word := .ok (degq steps.toNat)

/-- REL's result: the displacement from the center, converted by the same constant (41_angle.md R102, R107). -/
def relResult (center raw : RawAngle) : Except Cause Word := .ok (degq (displacement raw center))

/-- S2D (41_angle.md R101). -/
def execS2d (steps : StepCount) (s : State) : Host.Outcome State Fault Refusal :=
  complete (s2dResult steps) s

/-- REL (41_angle.md R102). -/
def execRel (center raw : RawAngle) (s : State) : Host.Outcome State Fault Refusal :=
  complete (relResult center raw) s

end Sys2Proof.Machine
end

