-- ==== Sys2Proof/Machine/Codec.lean ====
section
/-! DEFINITION. The register bitfield codec: GETF, SETF, MASK, LLM (40_codec.md R80 to R85). -/

namespace Sys2Proof.Machine

/-- The descriptor a command's selector names in the table in force; FSEL = 3 raises ILLEGAL_FIELD
(30_encoding.md R69; 40_codec.md R80). -/
def selectField : FieldSel → Except Cause FieldDescr
  | .named f => .ok (Config.fieldTable.get f)
  | .reserved => .error .illegalField

/-- GETF's result (40_codec.md R82). -/
def getfResult (fsel : FieldSel) (word : ConfigWord) : Except Cause Word :=
  match selectField fsel with
  | .error c => .error c
  | .ok d => .ok ((d.extract word).setWidth 32)

/-- SETF's result: the selector is checked before the value (40_codec.md R83; 60_exceptions.md R122). -/
def setfResult (val : FieldValue) (fsel : FieldSel) (word : ConfigWord) : Except Cause Word :=
  match selectField fsel with
  | .error c => .error c
  | .ok d => if d.fits val then .ok ((d.insert word val).setWidth 32) else .error .range

/-- MASK's result (40_codec.md R84). -/
def maskResult (fsel : FieldSel) : Except Cause Word :=
  match selectField fsel with
  | .error c => .error c
  | .ok d => .ok (d.mask.setWidth 32)

/-- LLM's result (40_codec.md R85). -/
def llmResult (word : ConfigWord) : Except Cause Word :=
  .ok ((Config.fieldTable.lowLatency Config.llmSf Config.llmFth word).setWidth 32)

/-- GETF (40_codec.md R82). -/
def execGetf (fsel : FieldSel) (word : ConfigWord) (s : State) : Host.Outcome State Fault Refusal :=
  complete (getfResult fsel word) s

/-- SETF (40_codec.md R83). -/
def execSetf (val : FieldValue) (fsel : FieldSel) (word : ConfigWord) (s : State) : Host.Outcome State Fault Refusal :=
  complete (setfResult val fsel word) s

/-- MASK (40_codec.md R84). -/
def execMask (fsel : FieldSel) (s : State) : Host.Outcome State Fault Refusal :=
  complete (maskResult fsel) s

/-- LLM (40_codec.md R85). -/
def execLlm (word : ConfigWord) (s : State) : Host.Outcome State Fault Refusal :=
  complete (llmResult word) s

end Sys2Proof.Machine
end

