-- ==== Sys2Proof/Machine/Dispatch.lean ====
section
/-! DEFINITION. exec: one arm a command of the opcode map (30_encoding.md R66). -/

namespace Sys2Proof.Machine

def exec (i : Instr) (s : State) : Host.Outcome State Fault Refusal :=
  match i with
  | .getf fsel word => Sys2Proof.Machine.execGetf fsel word s
  | .setf val fsel word => Sys2Proof.Machine.execSetf val fsel word s
  | .mask fsel => Sys2Proof.Machine.execMask fsel s
  | .llm word => Sys2Proof.Machine.execLlm word s
  | .s2d steps => Sys2Proof.Machine.execS2d steps s
  | .rel center raw => Sys2Proof.Machine.execRel center raw s

end Sys2Proof.Machine
end

