-- ==== Sys2Proof/Machine/Ports.lean ====
section
/-! DEFINITION. ACC's ports (20_memory.md R40 to R42, R49): what an edge asks of the machine, the host's next edge, and
the outputs. -/

namespace Sys2Proof.Machine

/-- What happens at a rising edge of `clk` (20_memory.md R41, R49). -/
inductive EdgeAction where
  | reset
  | idle
  | command (c : Word)
deriving DecidableEq, Repr

/-- `rst_n` = 0 resets whatever `cmd_valid` is; else `cmd_valid` = 1 presents a command (20_memory.md R41). -/
def EdgeInput.action (e : EdgeInput) : EdgeAction :=
  if e.rstN then (if e.cmdValid then .command e.cmd else .idle) else .reset

/-- The action at the next edge, and the state with that edge gone by. After the last listed edge the host leaves
`cmd_valid` = 0 (DESIGN CHOICE, log 1). -/
def State.nextEdge (s : State) : EdgeAction × State :=
  match s.edges with
  | [] => (.idle, s)
  | e :: rest => (e.action, { s with edges := rest })

/-- An edge that presents a command. -/
def EdgeInput.ofCommand (c : Word) : EdgeInput := { rstN := true, cmdValid := true, cmd := c }

/-- The state with its next edge presenting the command word c, whatever it was to present before. -/
def State.present (s : State) (c : Word) : State := { s with edges := .ofCommand c :: s.edges.tail }

/-- The output ports (20_memory.md R40). -/
structure Outputs where
  res : Word
  stat : Word
  err : Bool
deriving DecidableEq, Repr

/-- `res`, `stat` and `err` are driven from the registers (20_memory.md R42; 60_exceptions.md R127). -/
def State.outputs (s : State) : Outputs := { res := s.res, stat := s.stat, err := s.flt }

end Sys2Proof.Machine
end

