-- ==== Sys2Proof/Machine/Step.lean ====
section
/-! DEFINITION. One step of the machine: one rising edge of `clk` (20_memory.md R41, R46). -/

namespace Sys2Proof.Machine

/-- One rising edge: reset, nothing, or one command step (20_memory.md R41). -/
def step (s : State) : Host.Outcome State Fault Refusal :=
  match s.nextEdge with
  | (.reset, s') => .next s'.resetEdge
  | (.idle, s') => .next s'.idleEdge
  | (.command c, s') =>
    match decode c with
    | .ok i => exec i s'
    | .error e => illegalCommand e s'

/-- The state whose next edge presents the command whose table bits are w (log 2): a word of more than nbits bits has
zeros above them. -/
def State.withFetchWord (s : State) (nbits w : Nat) : State := s.present (BitVec.ofNat 32 (w % 2 ^ nbits))

end Sys2Proof.Machine
end

