-- ==== Sys2Proof/WellFormed.lean ====
section
/-! DEFINITION. The checks the spec asks for before a thing is used: a field table (00_scope.md R8) and a line of
assembly (30_encoding.md R72). A term of `Instr` needs none: its operand types are the operand widths of R65. -/

namespace Sys2Proof

/-- Every field lies inside the word: `off(f) + w(f) <= CW_WIDTH` (00_scope.md R8). -/
def FieldDescr.inside (d : FieldDescr) : Bool := decide (d.off + d.width ≤ 16)

/-- Two fields do not overlap: `mask(f) AND mask(g) = 0` (00_scope.md R8). -/
def FieldDescr.disjoint (d e : FieldDescr) : Bool := decide (d.mask &&& e.mask = 0)

/-- The field table is well formed: both conditions of 00_scope.md R8. -/
def FieldTable.wf (t : FieldTable) : Bool :=
  t.sf.inside && t.fth.inside && t.pm.inside &&
    t.sf.disjoint t.fth && t.sf.disjoint t.pm && t.fth.disjoint t.pm

/-- "A model that takes other offsets as parameters must check both conditions and refuse a table that fails
them" (00_scope.md R8): the table, or nothing. -/
def FieldTable.checked (t : FieldTable) : Option FieldTable := if t.wf then some t else none

/-- A field number is 0 to 3; a symbol always fits (30_encoding.md R72). -/
def AsmField.wf : AsmField → Bool
  | .named _ => true
  | .number n => decide (n ≤ 3)

/-- "The assembler refuses any operand too wide for its field: word > 0xFFFF, value > 7, steps > 8191, raw or
center > 4095, field > 3" (30_encoding.md R72). -/
def AsmLine.wf : AsmLine → Bool
  | .getf word field => decide (word ≤ 0xFFFF) && field.wf
  | .setf word field value => decide (word ≤ 0xFFFF) && field.wf && decide (value ≤ 7)
  | .mask field => field.wf
  | .llm word => decide (word ≤ 0xFFFF)
  | .s2d steps => decide (steps ≤ 8191)
  | .rel raw center => decide (raw ≤ 4095) && decide (center ≤ 4095)
  | .clrf word field => decide (word ≤ 0xFFFF) && field.wf
  | .fdis word => decide (word ≤ 0xFFFF)
  | .absdeg raw => decide (raw ≤ 4095)

end Sys2Proof
end

