-- ==== Sys2Proof/Machine/Assembler.lean ====
section
/-! DEFINITION. ACC's assembler: from text to command words (30_encoding.md R72, R73). What R72 leaves open of the
text (white space, letter case, empty lines, leading zeros, a field number in hexadecimal, the reason a refused line is
given) is a DESIGN CHOICE, log 12. -/

namespace Sys2Proof

/-- Why the assembler refuses a line. R72 names only the refusal of an operand too wide; the other two reasons are a
DESIGN CHOICE, log 12. -/
inductive AsmError where
  /-- The first word is no mnemonic and no pseudo-instruction, or the number of operands is not its own. -/
  | unknownLine
  /-- An operand is neither a number nor, where a field stands, a field symbol. -/
  | badOperand
  /-- An operand is too wide for its field (R72). -/
  | tooWide
deriving DecidableEq, Repr

/-- The one command a line stands for: a pseudo-instruction expands to exactly one command line, any other line is
itself (30_encoding.md R73). -/
def AsmLine.expand : AsmLine → AsmLine
  | .clrf word field => .setf word field 0
  | .fdis word => .setf word (.named .fth) 0
  | .absdeg raw => .rel raw 0
  | .getf word field => .getf word field
  | .setf word field value => .setf word field value
  | .mask field => .mask field
  | .llm word => .llm word
  | .s2d steps => .s2d steps
  | .rel raw center => .rel raw center

/-- The selector a field operand spells; the number 3 is the reserved one, encoded "without complaint"
(30_encoding.md R72). -/
def AsmField.selector : AsmField → FieldSel
  | .named f => .named f
  | .number n => .ofBits (BitVec.ofNat 2 n)

/-- The command a line encodes, its operands cut to their fields' widths; only lines that pass `AsmLine.wf` reach it
(30_encoding.md R72). -/
def AsmLine.command : AsmLine → Instr
  | .getf word field => .getf field.selector (BitVec.ofNat 16 word)
  | .setf word field value => .setf (BitVec.ofNat 3 value) field.selector (BitVec.ofNat 16 word)
  | .mask field => .mask field.selector
  | .llm word => .llm (BitVec.ofNat 16 word)
  | .s2d steps => .s2d (BitVec.ofNat 13 steps)
  | .rel raw center => .rel (BitVec.ofNat 12 center) (BitVec.ofNat 12 raw)
  | .clrf word field => .setf 0 field.selector (BitVec.ofNat 16 word)
  | .fdis word => .setf 0 (.named .fth) (BitVec.ofNat 16 word)
  | .absdeg raw => .rel 0 (BitVec.ofNat 12 raw)

/-- The command of one line, or the refusal of an operand too wide for its field (30_encoding.md R72). -/
def AsmLine.assemble (l : AsmLine) : Except AsmError Instr :=
  if l.expand.wf then .ok l.expand.command else .error .tooWide

namespace Asm

/-- White space inside a line (log 12). -/
def isSpace (c : Char) : Bool := c == ' ' || c == '\t' || c == '\r'

/-- Text without the white space at its two ends. -/
def trim (cs : List Char) : List Char := ((cs.dropWhile isSpace).reverse.dropWhile isSpace).reverse

/-- A line without its comment: "A `#` starts a comment" (30_encoding.md R72). -/
def stripComment (cs : List Char) : List Char := cs.takeWhile (· != '#')

/-- Text cut at every occurrence of a separator. -/
def cut (sep : Char) : List Char → List (List Char)
  | [] => [[]]
  | c :: cs =>
    if c == sep then [] :: cut sep cs
    else
      match cut sep cs with
      | [] => [[c]]
      | w :: ws => (c :: w) :: ws

/-- The value of a digit below the base, 10 or 16. -/
def digit (base : Nat) (c : Char) : Option Nat :=
  let n := c.toNat
  let v :=
    if 48 ≤ n ∧ n ≤ 57 then n - 48
    else if 65 ≤ n ∧ n ≤ 70 then n - 55
    else if 97 ≤ n ∧ n ≤ 102 then n - 87
    else base
  if v < base then some v else none

/-- The number that digits spell after those already read. -/
def digits (base : Nat) : Nat → List Char → Option Nat
  | acc, [] => some acc
  | acc, c :: cs =>
    match digit base c with
    | some d => digits base (acc * base + d) cs
    | none => none

/-- A decimal or `0x` hexadecimal number (30_encoding.md R72). Leading zeros and hexadecimal digits of either case are
taken (DESIGN CHOICE, log 12). -/
def number : List Char → Option Nat
  | [] => none
  | '0' :: 'x' :: c :: cs => digits 16 0 (c :: cs)
  | c :: cs => digits 10 0 (c :: cs)

/-- A field: SF, FTH, PM, or a number (30_encoding.md R72). R72 gives decimal and `0x` hexadecimal for the other
operands and no base for a field's number; it is read as they are, so `MASK 0x3` is `MASK 3` (DESIGN CHOICE, log 12). -/
def field : List Char → Option AsmField
  | ['S', 'F'] => some (.named .sf)
  | ['F', 'T', 'H'] => some (.named .fth)
  | ['P', 'M'] => some (.named .pm)
  | cs => (number cs).map .number

/-- The line a mnemonic and its operands spell (30_encoding.md R72, R73). -/
def line (mnemonic : List Char) (ops : List (List Char)) : Except AsmError AsmLine :=
  let made : Option (Option AsmLine) :=
    match mnemonic, ops with
    | ['G', 'E', 'T', 'F'], [w, f] => some (do return .getf (← number w) (← field f))
    | ['S', 'E', 'T', 'F'], [w, f, v] => some (do return .setf (← number w) (← field f) (← number v))
    | ['M', 'A', 'S', 'K'], [f] => some (do return .mask (← field f))
    | ['L', 'L', 'M'], [w] => some (do return .llm (← number w))
    | ['S', '2', 'D'], [n] => some (do return .s2d (← number n))
    | ['R', 'E', 'L'], [r, c] => some (do return .rel (← number r) (← number c))
    | ['C', 'L', 'R', 'F'], [w, f] => some (do return .clrf (← number w) (← field f))
    | ['F', 'D', 'I', 'S'], [w] => some (do return .fdis (← number w))
    | ['A', 'B', 'S', 'D', 'E', 'G'], [r] => some (do return .absdeg (← number r))
    | _, _ => none
  match made with
  | some (some l) => .ok l
  | some none => .error .badOperand
  | none => .error .unknownLine

/-- The command word of one line of text, or none for a line that holds only white space and a comment
(30_encoding.md R72). -/
def word (cs : List Char) : Except AsmError (Option Word) :=
  let body := trim (stripComment cs)
  if body.isEmpty then .ok none
  else
    let mnemonic := body.takeWhile (!isSpace ·)
    let ops := (cut ',' (body.drop mnemonic.length)).map trim
    match line mnemonic ops with
    | .error e => .error e
    | .ok l =>
      match l.assemble with
      | .error e => .error e
      | .ok i => .ok (some (encode i))

/-- The command words of a text, one command a line (30_encoding.md R72); the first bad line refuses the whole. -/
def text (cs : List Char) : Except AsmError (List Word) :=
  (cut '\n' cs).foldr
    (fun l rest =>
      match word l, rest with
      | .ok (some w), .ok ws => .ok (w :: ws)
      | .ok none, .ok ws => .ok ws
      | .error e, _ => .error e
      | _, .error e => .error e)
    (.ok [])

end Asm

end Sys2Proof
end

