-- ==== Sys2Proof/Safety.lean ====
section
/-! DEFINITION. What a claim about a run of ACC takes as safe (60_exceptions.md R124; 70_reset_and_hazards.md R142,
R144, R147). -/

namespace Sys2Proof.Machine

/-- The fault state: the mark a faulted run carries until reset (10_state.md R25; 60_exceptions.md R124). -/
def State.faulted (s : State) : Bool := s.flt

/-- What the host may use of RES: it must read STAT.FLT first, and with FLT = 1 RES is no result of the last command
(70_reset_and_hazards.md R147). -/
def State.usableResult (s : State) : Option Word := if s.flt then none else some s.res

/-- The outputs the host sees in k successive cycles: in the cycle that ends at an edge, the state before that edge
(20_memory.md R42; 70_reset_and_hazards.md R144). A stop would end the list. -/
def cycleOutputs : Nat → State → List Outputs
  | 0, _ => []
  | k + 1, s =>
    s.outputs ::
      match step s with
      | .next t => cycleOutputs k t
      | .fault _ => []
      | .refused _ => []

/-- No one of the next k edges resets the machine. -/
def State.noResetWithin (s : State) (k : Nat) : Prop := ∀ e ∈ s.edges.take k, e.rstN = true

/-- The state with its next edges presenting these command words, one an edge, and none after them. -/
def State.presentAll (s : State) (cs : List Word) : State := { s with edges := cs.map .ofCommand }

end Sys2Proof.Machine
end

