-- ==== Sys2Proof/Certificates/Slice0/Obligations.lean ====
section
/-! DEFINITION. The statements for the provers, from the numbered rules of spec/, and the arithmetic reference they are
stated against: R46, R71 and the command rules written once more over natural numbers, with no definition of the model
used. -/

namespace Sys2Proof.Reference

/-- The offset and width of a field code by the table of 00_scope.md R7. -/
def off : Nat → Nat
  | 0 => 8
  | 1 => 10
  | _ => 0

/-- The width of a field code by the table of 00_scope.md R7. -/
def width : Nat → Nat
  | 1 => 3
  | _ => 2

/-- The word with the w bits from bit `at_` on replaced by `val` (40_codec.md R83, as a number). -/
def insert (at_ w word val : Nat) : Nat :=
  word / 2 ^ (at_ + w) * 2 ^ (at_ + w) + val * 2 ^ at_ + word % 2 ^ at_

/-- The DEGQ number of REL by the 12-bit difference of raw and center (41_angle.md R103). -/
def rel (raw center : Nat) : Nat :=
  let d := (raw + 4096 - center) % 4096
  if d < 2048 then 45 * d else 2 ^ 32 - 45 * (4096 - d)

/-- What a command word gives in RUN: the value of RES, or the error code (30_encoding.md R71, 40_codec.md R82 to R85,
41_angle.md R101, R102, 60_exceptions.md R122), for a value of the open parameter LLM_FTH. -/
def result (llmFth c : Nat) : Except Nat Nat :=
  let fsel := c / 2 ^ 16 % 4
  let val := c / 2 ^ 18 % 8
  let word := c % 2 ^ 16
  match c / 2 ^ 29 with
  | 1 =>
    if c / 2 ^ 18 % 2 ^ 11 ≠ 0 then .error 3
    else if fsel = 3 then .error 2
    else .ok (word / 2 ^ off fsel % 2 ^ width fsel)
  | 2 =>
    if c / 2 ^ 21 % 2 ^ 8 ≠ 0 then .error 3
    else if fsel = 3 then .error 2
    else if val ≥ 2 ^ width fsel then .error 1
    else .ok (insert (off fsel) (width fsel) word val)
  | 3 =>
    if c / 2 ^ 18 % 2 ^ 11 ≠ 0 ∨ word ≠ 0 then .error 3
    else if fsel = 3 then .error 2
    else .ok ((2 ^ width fsel - 1) * 2 ^ off fsel)
  | 4 =>
    if c / 2 ^ 16 % 2 ^ 13 ≠ 0 then .error 3
    else .ok (insert 10 3 (insert 8 2 word 0) llmFth)
  | 5 =>
    if c / 2 ^ 13 % 2 ^ 16 ≠ 0 then .error 3
    else .ok (45 * (c % 2 ^ 13))
  | 6 =>
    if c / 2 ^ 24 % 2 ^ 5 ≠ 0 then .error 3
    else .ok (rel (c % 2 ^ 12) (c / 2 ^ 12 % 2 ^ 12))
  | _ => .error 3

/-- The command step of 20_memory.md R46 over numbers: (RES, ERR) and the word to (RES, ERR). -/
def step (llmFth : Nat) (res err c : Nat) : Nat × Nat :=
  if err ≠ 0 then (res, err)
  else
    match result llmFth c with
    | .ok v => (v, err)
    | .error e => (res, e)

/-- c has a nonzero bit in a reserved-zero field of its opcode's row (30_encoding.md R66, R67). -/
abbrev reservedBitSet (c : Nat) : Prop :=
  (c / 2 ^ 29 = 1 ∧ c / 2 ^ 18 % 2 ^ 11 ≠ 0) ∨
  (c / 2 ^ 29 = 2 ∧ c / 2 ^ 21 % 2 ^ 8 ≠ 0) ∨
  (c / 2 ^ 29 = 3 ∧ (c / 2 ^ 18 % 2 ^ 11 ≠ 0 ∨ c % 2 ^ 16 ≠ 0)) ∨
  (c / 2 ^ 29 = 4 ∧ c / 2 ^ 16 % 2 ^ 13 ≠ 0) ∨
  (c / 2 ^ 29 = 5 ∧ c / 2 ^ 13 % 2 ^ 16 ≠ 0) ∨
  (c / 2 ^ 29 = 6 ∧ c / 2 ^ 24 % 2 ^ 5 ≠ 0)

/-- A rational number that IEEE 754 binary64 holds exactly: 53 bits of significand and a normal or subnormal
exponent. -/
def isBinary64 (q : ℚ) : Prop := ∃ m e : ℤ, |m| < 2 ^ 53 ∧ -1074 ≤ e ∧ e ≤ 971 ∧ q = m * (2 : ℚ) ^ e

end Sys2Proof.Reference

namespace Sys2Proof.Machine

/-- In RUN, the next edge presents the command word c (20_memory.md R41), and `rest` are the edges after it. -/
def State.accepts (s : State) (c : Word) (rest : List EdgeInput) : Prop :=
  s.mode = .run ∧ s.edges = EdgeInput.ofCommand c :: rest

/-- RES of a command that executes in RUN without error, none otherwise. -/
def State.resultOf (s : State) (i : Instr) : Option Word :=
  match exec i s with
  | .next t => if s.mode = .run ∧ t.err = .none then some t.res else none
  | .fault _ => none
  | .refused _ => none

/-- Every value RES can hold by 10_state.md R21's table: a codec result in [15:0], or a DEGQ value 45 * k of S2D or
REL. -/
def State.resHoldsResult (s : State) : Prop :=
  s.res.toNat < 2 ^ 16 ∨ ∃ k : ℤ, -2048 ≤ k ∧ k ≤ 8191 ∧ s.res.toInt = 45 * k

end Sys2Proof.Machine

open Sys2Proof Sys2Proof.Machine

/-! ## Encoding -/

/-- 30_encoding.md R74: the six examples, assembled from text and decoded. -/
def Obligations.EncodingExamples : Prop :=
  Asm.word "GETF 0x1A03, FTH".toList = .ok (some 0x20011A03) ∧
  Asm.word "SETF 0x0000, FTH, 5".toList = .ok (some 0x40150000) ∧
  Asm.word "MASK SF".toList = .ok (some 0x60000000) ∧
  Asm.word "LLM 0xFFFF".toList = .ok (some 0x8000FFFF) ∧
  Asm.word "S2D 4096".toList = .ok (some 0xA0001000) ∧
  Asm.word "REL 1, 4095".toList = .ok (some 0xC0FFF001) ∧
  decode 0x20011A03 = .ok (.getf (.named .fth) 0x1A03) ∧
  decode 0x40150000 = .ok (.setf 5 (.named .fth) 0x0000) ∧
  decode 0x60000000 = .ok (.mask (.named .sf)) ∧
  decode 0x8000FFFF = .ok (.llm 0xFFFF) ∧
  decode 0xA0001000 = .ok (.s2d 4096) ∧
  decode 0xC0FFF001 = .ok (.rel 4095 1)

/-- Decoding an encoded command gives it back, with every operand at every value (30_encoding.md R62 to R66, R71). -/
def Obligations.DecodeOfEncodeIsTheCommand : Prop := ∀ i : Instr, decode (encode i) = .ok i

/-- A word that decodes is the encoding of what it decodes to: each command has one word and no bit of a word is
ignored (30_encoding.md R67, R70). -/
def Obligations.EncodeOfDecodeIsTheWord : Prop := ∀ (c : Word) (i : Instr), decode c = .ok i → encode i = c

/-- 30_encoding.md R66: the masks and matches of the opcode map select exactly the words that decode to each
mnemonic, and the two reserved rows select exactly the words rejected for their opcode. -/
def Obligations.OpcodeMapSelectsDecodedMnemonic : Prop :=
  ∀ c : Word,
    (c &&& 0xFFFC0000 = 0x20000000 ↔ ∃ f w, decode c = .ok (.getf f w)) ∧
    (c &&& 0xFFE00000 = 0x40000000 ↔ ∃ v f w, decode c = .ok (.setf v f w)) ∧
    (c &&& 0xFFFCFFFF = 0x60000000 ↔ ∃ f, decode c = .ok (.mask f)) ∧
    (c &&& 0xFFFF0000 = 0x80000000 ↔ ∃ w, decode c = .ok (.llm w)) ∧
    (c &&& 0xFFFFE000 = 0xA0000000 ↔ ∃ n, decode c = .ok (.s2d n)) ∧
    (c &&& 0xFF000000 = 0xC0000000 ↔ ∃ k r, decode c = .ok (.rel k r)) ∧
    (c &&& 0xE0000000 = 0x00000000 ↔ decode c = .error (.reservedOpcode 0)) ∧
    (c &&& 0xE0000000 = 0xE0000000 ↔ decode c = .error (.reservedOpcode 7))

/-- 30_encoding.md R65 with the bit ranges of R62, R63, R64: every operand of a decoded command is the unsigned
integer its bit range spells. -/
def Obligations.OperandsAreTheirBitRanges : Prop :=
  ∀ c : Word,
    (∀ f w, decode c = .ok (.getf f w) → w.toNat = c.toNat % 2 ^ 16 ∧ f.bits.toNat = c.toNat / 2 ^ 16 % 4) ∧
    (∀ v f w, decode c = .ok (.setf v f w) →
      w.toNat = c.toNat % 2 ^ 16 ∧ f.bits.toNat = c.toNat / 2 ^ 16 % 4 ∧ v.toNat = c.toNat / 2 ^ 18 % 8) ∧
    (∀ f, decode c = .ok (.mask f) → f.bits.toNat = c.toNat / 2 ^ 16 % 4) ∧
    (∀ w, decode c = .ok (.llm w) → w.toNat = c.toNat % 2 ^ 16) ∧
    (∀ n, decode c = .ok (.s2d n) → n.toNat = c.toNat % 2 ^ 13) ∧
    (∀ k r, decode c = .ok (.rel k r) → k.toNat = c.toNat / 2 ^ 12 % 2 ^ 12 ∧ r.toNat = c.toNat % 2 ^ 12)

/-- 30_encoding.md R67, R68: a reserved opcode, or a nonzero reserved-zero bit, raises ILLEGAL_CMD and changes nothing
else; the all-zero word is such a word. -/
def Obligations.IllegalWordsRaiseIllegalCommand : Prop :=
  (∀ (s : State) (c : Word) (rest : List EdgeInput), s.accepts c rest →
    c.toNat / 2 ^ 29 = 0 ∨ c.toNat / 2 ^ 29 = 7 ∨ Reference.reservedBitSet c.toNat →
    step s = .next { s with err := .illegalCmd, edges := rest }) ∧
  (∀ (s : State) (rest : List EdgeInput), s.accepts 0x00000000 rest →
    step s = .next { s with err := .illegalCmd, edges := rest })

/-- 30_encoding.md R70: every word either decodes to one of the six commands or, accepted in RUN, raises
ILLEGAL_CMD, and never both. -/
def Obligations.EveryWordDecodesOrIsIllegal : Prop :=
  ∀ (s : State) (c : Word) (rest : List EdgeInput), s.accepts c rest →
    ((∃ i, decode c = .ok i) ↔ step s ≠ .next { s with err := .illegalCmd, edges := rest })

/-- 30_encoding.md R69: GETF, SETF and MASK with FSEL = 3 decode, whatever their other operands, and raise
ILLEGAL_FIELD when they execute; LLM's words have FSEL = 0. -/
def Obligations.ReservedSelectorRaisesIllegalField : Prop :=
  (∀ (s : State) (w : ConfigWord) (v : FieldValue), s.mode = .run →
    exec (.getf .reserved w) s = .next { s with err := .illegalField } ∧
    exec (.setf v .reserved w) s = .next { s with err := .illegalField } ∧
    exec (.mask .reserved) s = .next { s with err := .illegalField }) ∧
  (∀ c : Word, c.toNat / 2 ^ 16 % 4 = 3 →
    (c.toNat / 2 ^ 18 = 2 ^ 11 → ∃ w, decode c = .ok (.getf .reserved w)) ∧
    (c.toNat / 2 ^ 21 = 2 ^ 9 → ∃ v w, decode c = .ok (.setf v .reserved w)) ∧
    (c.toNat / 2 ^ 18 = 3 * 2 ^ 11 → c.toNat % 2 ^ 16 = 0 → decode c = .ok (.mask .reserved))) ∧
  (∀ (c : Word) (w : ConfigWord), decode c = .ok (.llm w) → c.toNat / 2 ^ 16 % 4 = 0)

/-- 30_encoding.md R72: the assembler accepts a line exactly when no operand is too wide for its field, and then the
command's operands are the written numbers, in the written order. -/
def Obligations.AssemblerKeepsTheWrittenNumbers : Prop :=
  (∀ (w : Nat) (f : AsmField),
    (f.wf = true ∧ w ≤ 0xFFFF →
      ∃ w' : ConfigWord, w'.toNat = w ∧ (AsmLine.getf w f).assemble = .ok (.getf f.selector w')) ∧
    (¬ (f.wf = true ∧ w ≤ 0xFFFF) → (AsmLine.getf w f).assemble = .error .tooWide)) ∧
  (∀ (w v : Nat) (f : AsmField),
    (f.wf = true ∧ w ≤ 0xFFFF ∧ v ≤ 7 →
      ∃ (w' : ConfigWord) (v' : FieldValue), w'.toNat = w ∧ v'.toNat = v ∧
        (AsmLine.setf w f v).assemble = .ok (.setf v' f.selector w')) ∧
    (¬ (f.wf = true ∧ w ≤ 0xFFFF ∧ v ≤ 7) → (AsmLine.setf w f v).assemble = .error .tooWide)) ∧
  (∀ f : AsmField,
    (f.wf = true → (AsmLine.mask f).assemble = .ok (.mask f.selector)) ∧
    (¬ f.wf = true → (AsmLine.mask f).assemble = .error .tooWide)) ∧
  (∀ w : Nat,
    (w ≤ 0xFFFF → ∃ w' : ConfigWord, w'.toNat = w ∧ (AsmLine.llm w).assemble = .ok (.llm w')) ∧
    (¬ w ≤ 0xFFFF → (AsmLine.llm w).assemble = .error .tooWide)) ∧
  (∀ n : Nat,
    (n ≤ 8191 → ∃ n' : StepCount, n'.toNat = n ∧ (AsmLine.s2d n).assemble = .ok (.s2d n')) ∧
    (¬ n ≤ 8191 → (AsmLine.s2d n).assemble = .error .tooWide)) ∧
  (∀ r k : Nat,
    (r ≤ 4095 ∧ k ≤ 4095 →
      ∃ r' k' : RawAngle, r'.toNat = r ∧ k'.toNat = k ∧ (AsmLine.rel r k).assemble = .ok (.rel k' r')) ∧
    (¬ (r ≤ 4095 ∧ k ≤ 4095) → (AsmLine.rel r k).assemble = .error .tooWide)) ∧
  (∀ n : Nat, (AsmField.number n).wf = true ↔ n ≤ 3) ∧
  (∀ n : Nat, n ≤ 3 → (AsmField.number n).selector.bits.toNat = n) ∧
  (∀ f : Field, (AsmField.named f).wf = true ∧ (AsmField.named f).selector = .named f)

/-- 30_encoding.md R73: each pseudo-instruction assembles to exactly the command of its expansion. -/
def Obligations.PseudoInstructionsExpand : Prop :=
  (∀ (w : Nat) (f : AsmField), (AsmLine.clrf w f).assemble = (AsmLine.setf w f 0).assemble) ∧
  (∀ w : Nat, (AsmLine.fdis w).assemble = (AsmLine.setf w (.named .fth) 0).assemble) ∧
  (∀ r : Nat, (AsmLine.absdeg r).assemble = (AsmLine.rel r 0).assemble)

/-! ## The step -/

/-- 20_memory.md R41: at an edge with rst_n = 1 and cmd_valid = 1 whose word decodes to i, the step is exec of i at
the state with that edge gone by (a word that decodes to nothing raises ILLEGAL_CMD in RUN and has no effect in FAULT);
at an edge with rst_n = 1 and cmd_valid = 0 nothing else changes; at an edge with rst_n = 0 reset happens whatever
cmd_valid and cmd are. -/
def Obligations.StepRunsTheDecodedCommand : Prop :=
  (∀ (s : State) (c : Word) (rest : List EdgeInput) (i : Instr),
    s.edges = ⟨true, true, c⟩ :: rest → decode c = .ok i → step s = exec i { s with edges := rest }) ∧
  (∀ (s : State) (c : Word) (rest : List EdgeInput) (d : DecodeError),
    s.edges = ⟨true, true, c⟩ :: rest → decode c = .error d →
    (s.mode = .run → step s = .next { s with err := .illegalCmd, edges := rest }) ∧
    (s.mode = .fault → step s = .next { s with edges := rest })) ∧
  (∀ (s : State) (c : Word) (rest : List EdgeInput),
    s.edges = ⟨true, false, c⟩ :: rest → step s = .next { s with edges := rest }) ∧
  (∀ (s : State) (c : Word) (v : Bool) (rest : List EdgeInput),
    s.edges = ⟨false, v, c⟩ :: rest → step s = .next { res := 0, err := .none, edges := rest })

/-- Past the edges the state lists, the host leaves cmd_valid = 0, so nothing changes (the model's DESIGN CHOICE,
log 1; no rule of the spec). -/
def Obligations.UnlistedEdgesAreIdle : Prop := ∀ s : State, s.edges = [] → step s = .next s

/-- The host's way to present a table row's word: the very next step runs the command the decoder reads from it,
at the state with that edge gone by (DESIGN CHOICE, log 2). -/
def Obligations.PresentedTableWordRunsNext : Prop :=
  ∀ (s : State) (w : Nat) (i : Instr), decodeTableWord 32 w = some i →
    step (s.withFetchWord 32 w) = exec i { s with edges := s.edges.tail }

/-- 70_reset_and_hazards.md R140: reset sets RES and STAT.ERR to 0 whatever the other ports and the state are, FLT,
err and the mode follow, a second reset edge repeats the same assignment, and no other event clears STAT.ERR. -/
def Obligations.ResetEdgeClearsBothRegisters : Prop :=
  (∀ (s : State) (e : EdgeInput) (rest : List EdgeInput), s.edges = e :: rest → e.rstN = false →
    ∃ t, step s = .next t ∧ t.res = 0x00000000 ∧ t.err.bits = 0 ∧ t.flt = false ∧ t.outputs.err = false ∧
      t.mode = .run ∧ t.edges = rest ∧
      ∀ (e' : EdgeInput) (rest' : List EdgeInput), rest = e' :: rest' → e'.rstN = false →
        step t = .next { t with edges := rest' }) ∧
  (∀ s t : State, step s = .next t → s.err ≠ .none → t.err = .none →
    ∃ e, s.edges.head? = some e ∧ e.rstN = false)

/-- 10_state.md R30: the reset values, and that the first reset edge after power-up leaves them whatever the
unspecified registers held. -/
def Obligations.RegistersAfterReset : Prop :=
  State.reset.res = 0x00000000 ∧ State.reset.err.bits = 0 ∧ State.reset.flt = false ∧
  State.reset.stat.extractLsb' 3 29 = 0 ∧ State.reset.stat = 0 ∧ State.reset.mode = .run ∧
  ∀ (e : EdgeInput) (rest : List EdgeInput), e.rstN = false →
    step (State.powerUp (e :: rest)) = .next { State.reset with edges := rest }

/-- Whatever the host drives, an edge has a next state: ACC never stops, in no state and on no word. The model's
choice: that an error is a next state and never a stop is DEDUCED (log 10) from 60_exceptions.md R123, R124 and
20_memory.md R41, R46, R49, and at an empty list of edges the next state is the idle one by DESIGN CHOICE (log 1). -/
def Obligations.EveryEdgeHasANextState : Prop := ∀ s : State, ∃ t, step s = .next t

/-- Each step uses up exactly the next listed edge (model's choice, log 1: the host's edges are a list). -/
def Obligations.EachStepUsesOneEdge : Prop := ∀ s t : State, step s = .next t → t.edges = s.edges.tail

/-- 20_memory.md R46 with the decoder of R71 and the command rules: a step that accepts a word gives the registers the
arithmetic reference gives, for the value LLM_FTH has. -/
def Obligations.CommandStepRefinesArithmeticReference : Prop :=
  ∀ (s : State) (c : Word) (rest : List EdgeInput), s.edges = EdgeInput.ofCommand c :: rest →
    ∃ t, step s = .next t ∧ t.edges = rest ∧
      (t.res.toNat, t.err.bits.toNat) =
        Reference.step Config.llmFth.toNat s.res.toNat s.err.bits.toNat c.toNat

/-- 20_memory.md R46: a result is not changed until a later accepted command completes without error, or a reset. -/
def Obligations.ResultStaysUntilTheNextCompletion : Prop :=
  ∀ s t : State, step s = .next t → t.res ≠ s.res →
    ∃ e rest, s.edges = e :: rest ∧
      (e.rstN = false ∧ t.res = 0 ∨
       e.rstN = true ∧ e.cmdValid = true ∧ s.mode = .run ∧ t.err = s.err ∧
         Reference.result Config.llmFth.toNat e.cmd.toNat = .ok t.res.toNat)

/-- In each of k successive cycles the outputs show the registers after the edges before it, and so the state before
the edge that ends the cycle (after 20_memory.md R42). Its cycles may go past the listed edges, where no edge is more
than idle by the model's DESIGN CHOICE (log 1), so it is no rule of the spec there. -/
def Obligations.OutputsShowTheStateBeforeTheEdge : Prop :=
  ∀ (k j : Nat) (s : State), j < k →
    ∃ t, Host.Core.run core j s = .next t ∧
      (cycleOutputs k s)[j]? = some { res := t.res, stat := t.stat, err := t.flt }

/-! ## STAT, the modes and errors -/

/-- 10_state.md R22, R24: STAT's layout in every state, the codes of ERR by R23, and the err port. -/
def Obligations.StatusRegisterLayout : Prop :=
  (∀ s : State,
    s.stat.extractLsb' 0 2 = s.err.bits ∧ s.stat.getLsbD 2 = decide (s.err.bits ≠ 0) ∧
    s.stat.extractLsb' 3 29 = 0 ∧ s.outputs.stat = s.stat ∧ s.outputs.res = s.res ∧
    s.outputs.err = s.stat.getLsbD 2 ∧ s.flt = s.stat.getLsbD 2) ∧
  ErrCode.none.bits = 0 ∧ ErrCode.range.bits = 1 ∧ ErrCode.illegalField.bits = 2 ∧ ErrCode.illegalCmd.bits = 3

/-- 10_state.md R25: the mode is RUN exactly when ERR = 0; in FAULT no command has an effect; a step that goes from
FAULT to RUN is a reset. -/
def Obligations.ModeIsReadOffTheErrorCode : Prop :=
  (∀ s : State, (s.mode = .run ↔ s.err.bits = 0) ∧ (s.mode = .fault ↔ s.err.bits ≠ 0)) ∧
  (∀ (i : Instr) (s : State), s.mode = .fault → exec i s = .next s) ∧
  (∀ s t : State, step s = .next t → s.mode = .fault → t.mode = .run →
    ∃ e, s.edges.head? = some e ∧ e.rstN = false)

/-- 60_exceptions.md R124: in the fault state every command word, legal or not, leaves RES and STAT as they are. -/
def Obligations.FaultStateIgnoresEveryWord : Prop :=
  ∀ (s : State) (c : Word) (rest : List EdgeInput), s.err ≠ .none → s.edges = EdgeInput.ofCommand c :: rest →
    step s = .next { s with edges := rest } ∧ ({ s with edges := rest } : State).stat = s.stat

/-- 60_exceptions.md R124, R125, R127 over runs: from a faulted state, through any number of edges without reset, the
first error's code, RES and the err port stay as they are. -/
def Obligations.FirstErrorSticksUntilReset : Prop :=
  ∀ (k : Nat) (s : State), s.faulted = true → k ≤ s.edges.length → s.noResetWithin k →
    ∃ t, Host.Core.run core k s = .next t ∧ t.err = s.err ∧ t.res = s.res ∧ t.outputs.err = true ∧
      t.usableResult = none

/-- 60_exceptions.md R127: err equals STAT.FLT; it is low in RUN and rises at every edge that accepts a word raising an
error, whose code is then in STAT; it rises at no other edge, and falls only at a reset. -/
def Obligations.ErrPortRisesWithTheFirstError : Prop :=
  (∀ s : State, s.outputs.err = s.stat.getLsbD 2) ∧
  (∀ (s : State) (c : Word) (rest : List EdgeInput) (e : Nat), s.accepts c rest →
    Reference.result Config.llmFth.toNat c.toNat = .error e →
    s.outputs.err = false ∧ ∃ t, step s = .next t ∧ t.outputs.err = true ∧ t.err.bits.toNat = e ∧ t.res = s.res) ∧
  (∀ s t : State, step s = .next t → s.outputs.err = false → t.outputs.err = true →
    ∃ c rest, s.accepts c rest ∧ t.res = s.res ∧
      Reference.result Config.llmFth.toNat c.toNat = .error t.err.bits.toNat) ∧
  (∀ s t : State, step s = .next t → s.outputs.err = true → t.outputs.err = false →
    ∃ e, s.edges.head? = some e ∧ e.rstN = false)

/-- 60_exceptions.md R123: a command of RUN that ends with an error code has written that code (FLT and the err port
are then 1) and nothing else. -/
def Obligations.ErrorEntryWritesOnlyTheCode : Prop :=
  ∀ (s t : State) (c : Word) (rest : List EdgeInput), s.accepts c rest → step s = .next t → t.err ≠ .none →
    t = { s with err := t.err, edges := rest } ∧ t.flt = true ∧ t.outputs.err = true ∧
      Reference.result Config.llmFth.toNat c.toNat = .error t.err.bits.toNat

/-- 60_exceptions.md R122: ILLEGAL_CMD before ILLEGAL_FIELD before RANGE, for every word accepted in RUN, and the two
words of the rule. -/
def Obligations.ErrorPriority : Prop :=
  (∀ (s : State) (c : Word) (rest : List EdgeInput), s.accepts c rest →
    ∃ t, step s = .next t ∧
      (c.toNat / 2 ^ 29 = 0 ∨ c.toNat / 2 ^ 29 = 7 ∨ Reference.reservedBitSet c.toNat → t.err = .illegalCmd) ∧
      (¬ (c.toNat / 2 ^ 29 = 0 ∨ c.toNat / 2 ^ 29 = 7 ∨ Reference.reservedBitSet c.toNat) →
        (c.toNat / 2 ^ 29 ≤ 3 ∧ c.toNat / 2 ^ 16 % 4 = 3 → t.err = .illegalField) ∧
        (c.toNat / 2 ^ 29 = 2 ∧ (c.toNat / 2 ^ 16 % 4 = 0 ∨ c.toNat / 2 ^ 16 % 4 = 2) ∧ 4 ≤ c.toNat / 2 ^ 18 % 8 →
          t.err = .range) ∧
        (¬ (c.toNat / 2 ^ 29 ≤ 3 ∧ c.toNat / 2 ^ 16 % 4 = 3) ∧
         ¬ (c.toNat / 2 ^ 29 = 2 ∧ (c.toNat / 2 ^ 16 % 4 = 0 ∨ c.toNat / 2 ^ 16 % 4 = 2) ∧
            4 ≤ c.toNat / 2 ^ 18 % 8) → t.err = .none))) ∧
  (∀ (s : State) (rest : List EdgeInput), s.accepts 0x40171234 rest →
    step s = .next { s with err := .illegalField, edges := rest }) ∧
  (∀ (s : State) (rest : List EdgeInput), s.accepts 0x40F71234 rest →
    step s = .next { s with err := .illegalCmd, edges := rest })

/-! ## The codec -/

/-- 40_codec.md R80 with 00_scope.md R7: offsets, widths, masks and keeps of the table in force. -/
def Obligations.FieldTableValues : Prop :=
  Config.fieldTable.get .sf = ⟨8, 2⟩ ∧ Config.fieldTable.get .fth = ⟨10, 3⟩ ∧ Config.fieldTable.get .pm = ⟨0, 2⟩ ∧
  (Config.fieldTable.get .sf).mask = 0x0300 ∧ (Config.fieldTable.get .sf).keep = 0xFCFF ∧
  (Config.fieldTable.get .fth).mask = 0x1C00 ∧ (Config.fieldTable.get .fth).keep = 0xE3FF ∧
  (Config.fieldTable.get .pm).mask = 0x0003 ∧ (Config.fieldTable.get .pm).keep = 0xFFFC

/-- 00_scope.md R8: a table is taken exactly when every field lies inside the word and no two fields share a bit, said
bit by bit; any other is refused; the table in force is taken, its bits outside all masks are 0xE0FC, and every
successful SETF keeps those bits. -/
def Obligations.FieldTableCheck : Prop :=
  (∀ t : FieldTable,
    ((∀ f, (t.get f).off + (t.get f).width ≤ 16) ∧
      (∀ f g, f ≠ g → ∀ b, b < 16 →
        ¬ ((t.get f).off ≤ b ∧ b < (t.get f).off + (t.get f).width ∧
           (t.get g).off ≤ b ∧ b < (t.get g).off + (t.get g).width)) → t.checked = some t) ∧
    (¬ ((∀ f, (t.get f).off + (t.get f).width ≤ 16) ∧
      (∀ f g, f ≠ g → ∀ b, b < 16 →
        ¬ ((t.get f).off ≤ b ∧ b < (t.get f).off + (t.get f).width ∧
           (t.get g).off ≤ b ∧ b < (t.get g).off + (t.get g).width))) → t.checked = none)) ∧
  Config.fieldTable.checked = some Config.fieldTable ∧
  (Config.fieldTable.get .sf).keep &&& (Config.fieldTable.get .fth).keep &&& (Config.fieldTable.get .pm).keep = 0xE0FC ∧
  (∀ (s : State) (v : FieldValue) (f : Field) (w : ConfigWord) (r : Word),
    s.resultOf (.setf v (.named f) w) = some r → r.setWidth 16 &&& (0xE0FC : ConfigWord) = w &&& (0xE0FC : ConfigWord))

/-- 40_codec.md R82: GETF completes in RUN for every field and word, RES is the number the field's bits spell and
nothing else changes; FSEL = 3 and nonzero reserved bits raise their errors; the encoding. -/
def Obligations.GetfReadsTheField : Prop :=
  (∀ (s : State) (f : Field) (w : ConfigWord), s.mode = .run →
    exec (.getf (.named f) w) s =
      .next { s with
        res := BitVec.ofNat 32
          (w.toNat / 2 ^ (Config.fieldTable.get f).off % 2 ^ (Config.fieldTable.get f).width) }) ∧
  (∀ (s : State) (w : ConfigWord), s.mode = .run →
    exec (.getf .reserved w) s = .next { s with err := .illegalField }) ∧
  (∀ (s : State) (c : Word) (rest : List EdgeInput), s.accepts c rest → c.toNat / 2 ^ 29 = 1 →
    c.toNat / 2 ^ 18 % 2 ^ 11 ≠ 0 → step s = .next { s with err := .illegalCmd, edges := rest }) ∧
  (∀ (f : FieldSel) (w : ConfigWord),
    (encode (.getf f w)).toNat = 1 * 2 ^ 29 + f.bits.toNat * 2 ^ 16 + w.toNat)

/-- 40_codec.md R83: SETF completes in RUN for every field, word and value that fits, RES is the word with that field
replaced and nothing else changes; RANGE for a value too wide (SF and PM only), ILLEGAL_FIELD for FSEL = 3 whatever
the value, ILLEGAL_CMD for a nonzero reserved bit; the encoding. -/
def Obligations.SetfReplacesTheField : Prop :=
  (∀ (s : State) (v : FieldValue) (f : Field) (w : ConfigWord), s.mode = .run →
    v.toNat < 2 ^ (Config.fieldTable.get f).width →
    exec (.setf v (.named f) w) s =
      .next { s with
        res := BitVec.ofNat 32
          (Reference.insert (Config.fieldTable.get f).off (Config.fieldTable.get f).width w.toNat v.toNat) }) ∧
  (∀ (s : State) (v : FieldValue) (f : Field) (w : ConfigWord), s.mode = .run →
    2 ^ (Config.fieldTable.get f).width ≤ v.toNat →
    exec (.setf v (.named f) w) s = .next { s with err := .range } ∧ (f = .sf ∨ f = .pm) ∧ 4 ≤ v.toNat) ∧
  (∀ (s : State) (v : FieldValue) (w : ConfigWord), s.mode = .run →
    exec (.setf v .reserved w) s = .next { s with err := .illegalField }) ∧
  (∀ (s : State) (c : Word) (rest : List EdgeInput), s.accepts c rest → c.toNat / 2 ^ 29 = 2 →
    c.toNat / 2 ^ 21 % 2 ^ 8 ≠ 0 → step s = .next { s with err := .illegalCmd, edges := rest }) ∧
  (∀ (v : FieldValue) (f : FieldSel) (w : ConfigWord),
    (encode (.setf v f w)).toNat = 2 * 2 ^ 29 + v.toNat * 2 ^ 18 + f.bits.toNat * 2 ^ 16 + w.toNat)

/-- 40_codec.md R84: MASK completes in RUN for every field, RES has exactly the field's bits set and nothing else
changes; its errors; the encoding. -/
def Obligations.MaskGivesTheFieldsBits : Prop :=
  (∀ (s : State) (f : Field), s.mode = .run →
    ∃ t, exec (.mask (.named f)) s = .next t ∧ t.err = s.err ∧ t.edges = s.edges ∧
      (∀ b, t.res.getLsbD b = decide ((Config.fieldTable.get f).off ≤ b ∧
        b < (Config.fieldTable.get f).off + (Config.fieldTable.get f).width)) ∧
      t.res.toNat = (2 ^ (Config.fieldTable.get f).width - 1) * 2 ^ (Config.fieldTable.get f).off) ∧
  (∀ s : State, s.mode = .run → exec (.mask .reserved) s = .next { s with err := .illegalField }) ∧
  (∀ (s : State) (c : Word) (rest : List EdgeInput), s.accepts c rest → c.toNat / 2 ^ 29 = 3 →
    c.toNat / 2 ^ 18 % 2 ^ 11 ≠ 0 ∨ c.toNat % 2 ^ 16 ≠ 0 →
    step s = .next { s with err := .illegalCmd, edges := rest }) ∧
  (∀ f : FieldSel, (encode (.mask f)).toNat = 3 * 2 ^ 29 + f.bits.toNat * 2 ^ 16)

/-- 40_codec.md R85: LLM completes in RUN for every word, RES is SETF of LLM_SF then of LLM_FTH, which is
(WORD AND 0xE0FF) OR (LLM_FTH << 10), and nothing else changes; its one error; the encoding. Said for whatever value
LLM_FTH has. -/
def Obligations.LlmWritesTheLowLatencyWord : Prop :=
  (∀ (s : State) (w : ConfigWord), s.mode = .run →
    exec (.llm w) s =
      .next { s with
        res := BitVec.ofNat 32
          (Reference.insert 10 3 (Reference.insert 8 2 w.toNat Config.llmSf.toNat) Config.llmFth.toNat) } ∧
    exec (.llm w) s =
      .next { s with res := ((w &&& (0xE0FF : ConfigWord)) ||| (Config.llmFth.setWidth 16 <<< 10)).setWidth 32 } ∧
    (∀ t t' : State, exec (.setf Config.llmSf (.named .sf) w) s = .next t →
      exec (.setf Config.llmFth (.named .fth) (t.res.setWidth 16)) t = .next t' → exec (.llm w) s = .next t')) ∧
  (∀ (s : State) (c : Word) (rest : List EdgeInput), s.accepts c rest → c.toNat / 2 ^ 29 = 4 →
    c.toNat / 2 ^ 16 % 2 ^ 13 ≠ 0 → step s = .next { s with err := .illegalCmd, edges := rest }) ∧
  (∀ w : ConfigWord, (encode (.llm w)).toNat = 4 * 2 ^ 29 + w.toNat)

/-- 40_codec.md R86, the seven laws of SETF and GETF on the machine, with the results read off RES; each result is
taken from a state of its own, since no command reads RES. -/
def Obligations.CodecLaws : Prop :=
  ∀ (s s' : State) (f g : Field) (v v1 v2 u : FieldValue) (w : ConfigWord) (r r' x : Word), s.mode = .run →
    s'.mode = .run →
    (s.resultOf (.setf v (.named f) w) = some r →
      s'.resultOf (.setf v (.named f) (r.setWidth 16)) = some r ∧
      s'.resultOf (.getf (.named f) (r.setWidth 16)) = some (v.setWidth 32) ∧
      (g ≠ f → s'.resultOf (.getf (.named g) (r.setWidth 16)) = s'.resultOf (.getf (.named g) w)) ∧
      r.setWidth 16 &&& (Config.fieldTable.get f).keep = w &&& (Config.fieldTable.get f).keep) ∧
    (s.resultOf (.getf (.named f) w) = some x →
      s'.resultOf (.setf (x.setWidth 3) (.named f) w) = some (w.setWidth 32)) ∧
    (s.resultOf (.setf v1 (.named f) w) = some r → s.resultOf (.setf v2 (.named f) w) = some r' →
      s'.resultOf (.setf v2 (.named f) (r.setWidth 16)) = some r') ∧
    (g ≠ f → s.resultOf (.setf v (.named f) w) = some r → s.resultOf (.setf u (.named g) w) = some r' →
      s'.resultOf (.setf u (.named g) (r.setWidth 16)) = s'.resultOf (.setf v (.named f) (r'.setWidth 16)))

/-- The laws of 40_codec.md R86 for EVERY field table that 00_scope.md R8 takes, so for whatever offsets a build
has. -/
def Obligations.CodecLawsForEveryCheckedTable : Prop :=
  ∀ (t : FieldTable), t.checked = some t → ∀ (f g : Field) (v u : FieldValue) (w : ConfigWord),
    (t.get f).fits v = true →
    (t.get f).extract ((t.get f).insert w v) = v.setWidth 16 ∧
    (t.get f).insert ((t.get f).insert w v) v = (t.get f).insert w v ∧
    (g ≠ f → (t.get g).extract ((t.get f).insert w v) = (t.get g).extract w) ∧
    (t.get f).insert w v &&& (t.get f).keep = w &&& (t.get f).keep ∧
    ((t.get f).width ≤ 3 → (t.get f).insert w (((t.get f).extract w).setWidth 3) = w) ∧
    ((t.get f).fits u = true → (t.get f).insert ((t.get f).insert w u) v = (t.get f).insert w v) ∧
    (g ≠ f → (t.get g).fits u = true →
      (t.get g).insert ((t.get f).insert w v) u = (t.get f).insert ((t.get g).insert w u) v)

/-- 40_codec.md R87: whatever the prior word, LLM's word has SF = 0 and FTH = LLM_FTH, which is nonzero, and keeps the
bits of 0xE0FF. -/
def Obligations.LlmLaw : Prop :=
  ∀ (s s' : State) (w : ConfigWord), s.mode = .run → s'.mode = .run →
    ∃ r : Word, s.resultOf (.llm w) = some r ∧
      s'.resultOf (.getf (.named .sf) (r.setWidth 16)) = some 0 ∧ Config.llmSf = 0 ∧
      s'.resultOf (.getf (.named .fth) (r.setWidth 16)) = some (Config.llmFth.setWidth 32) ∧ Config.llmFth ≠ 0 ∧
      r.setWidth 16 &&& (0xE0FF : ConfigWord) = w &&& (0xE0FF : ConfigWord)

/-! ## The angle converter -/

/-- 41_angle.md R101: S2D completes in RUN for every step count, RES is 45 * STEPS with no wraparound, at most 368595,
and nothing else changes; the corner cases; its one error; the encoding. -/
def Obligations.S2dMultipliesByTheConstant : Prop :=
  (∀ (s : State) (n : StepCount), s.mode = .run →
    exec (.s2d n) s = .next { s with res := BitVec.ofNat 32 (45 * n.toNat) } ∧ 45 * n.toNat ≤ 368595) ∧
  (∀ s : State, s.mode = .run →
    exec (.s2d 0) s = .next { s with res := 0x00000000 } ∧
    exec (.s2d 4096) s = .next { s with res := 0x0002D000 } ∧
    exec (.s2d 4095) s = .next { s with res := 0x0002CFD3 } ∧
    exec (.s2d 2) s = .next { s with res := 0x0000005A }) ∧
  (∀ (s : State) (c : Word) (rest : List EdgeInput), s.accepts c rest → c.toNat / 2 ^ 29 = 5 →
    c.toNat / 2 ^ 13 % 2 ^ 16 ≠ 0 → step s = .next { s with err := .illegalCmd, edges := rest }) ∧
  (∀ n : StepCount, (encode (.s2d n)).toNat = 5 * 2 ^ 29 + n.toNat)

/-- 41_angle.md R102: REL completes in RUN for every pair of angles, RES is the 32-bit two's complement of 45 * delta
by the centered floor-modulo formula, and nothing else changes; the half turn gives -180 degrees; its one error; the
encoding. -/
def Obligations.RelGivesTheCenteredDisplacement : Prop :=
  (∀ (s : State) (k r : RawAngle), s.mode = .run →
    exec (.rel k r) s =
      .next { s with
        res := BitVec.ofInt 32 (45 * (((r.toNat : ℤ) - k.toNat + 2048) % 4096 - 2048)) } ∧
    exec (.rel k r) s = .next { s with res := BitVec.ofNat 32 (Reference.rel r.toNat k.toNat) }) ∧
  (∀ (s : State) (k : RawAngle), s.mode = .run →
    exec (.rel k k) s = .next { s with res := 0 } ∧
    exec (.rel k (k + 2048)) s = .next { s with res := 0xFFFE9800 } ∧
    exec (.rel k (k + 2047)) s = .next { s with res := 0x000167D3 } ∧
    exec (.rel k (k + 2049)) s = .next { s with res := 0xFFFE982D } ∧
    exec (.rel 4095 1) s = .next { s with res := 0x0000005A } ∧
    exec (.rel 1 4095) s = .next { s with res := 0xFFFFFFA6 } ∧
    exec (.rel 4000 100) s = .next { s with res := 0x00002274 }) ∧
  (∀ (s : State) (c : Word) (rest : List EdgeInput), s.accepts c rest → c.toNat / 2 ^ 29 = 6 →
    c.toNat / 2 ^ 24 % 2 ^ 5 ≠ 0 → step s = .next { s with err := .illegalCmd, edges := rest }) ∧
  (∀ k r : RawAngle, (encode (.rel k r)).toNat = 6 * 2 ^ 29 + k.toNat * 2 ^ 12 + r.toNat)

/-- 41_angle.md R103: the displacement is the 12-bit difference read as two's complement, and RES of REL is 45 times
it. -/
def Obligations.RelIsTheTwelveBitDifference : Prop :=
  ∀ (s : State) (k r : RawAngle), s.mode = .run →
    displacement r k = (r - k).toInt ∧
    ∃ t, exec (.rel k r) s = .next t ∧ t.res.toInt = 45 * (r - k).toInt

/-- 41_angle.md R104: the range of REL in steps and in degrees, every step count of it occurs, and -180 degrees is
exactly the half turn. -/
def Obligations.RelRange : Prop :=
  (∀ (s : State) (k r : RawAngle), s.mode = .run →
    ∃ t, exec (.rel k r) s = .next t ∧
      -2048 ≤ displacement r k ∧ displacement r k ≤ 2047 ∧
      degrees t.res = (displacement r k : ℚ) * 360 / 4096 ∧
      -180 ≤ degrees t.res ∧ degrees t.res < 180 ∧ degrees t.res ≤ 179.912109375 ∧
      (degrees t.res = -180 ↔ ((r.toNat : ℤ) - k.toNat) % 4096 = 2048)) ∧
  (∀ d : ℤ, -2048 ≤ d → d ≤ 2047 → ∃ k r : RawAngle, displacement r k = d)

/-- 41_angle.md R105: the six laws of REL, in steps. -/
def Obligations.RelLaws : Prop :=
  (∀ a : RawAngle, displacement a a = 0) ∧
  displacement 1 4095 = 2 ∧
  (∀ (a b : RawAngle) (k : ℤ), displacement (a + BitVec.ofInt 12 k) (b + BitVec.ofInt 12 k) = displacement a b) ∧
  (∀ a b : RawAngle,
    (((a.toNat : ℤ) - b.toNat) % 4096 ≠ 2048 → displacement b a = - displacement a b) ∧
    (((a.toNat : ℤ) - b.toNat) % 4096 = 2048 → displacement b a = -2048 ∧ displacement a b = -2048)) ∧
  (∀ a b : RawAngle,
    (displacement a b ≠ 2047 → displacement (a + 1) b = displacement a b + 1) ∧
    (displacement a b = 2047 → displacement (a + 1) b = -2048)) ∧
  (∀ a b : RawAngle, -2048 ≤ (a.toNat : ℤ) - b.toNat → (a.toNat : ℤ) - b.toNat ≤ 2047 →
    displacement a b = a.toNat - b.toNat)

/-- 41_angle.md R106: S2D gives 0 and 360 degrees exactly, is linear while the sum is encodable, and stays below 360
degrees below one revolution. -/
def Obligations.S2dLaws : Prop :=
  ∀ s : State, s.mode = .run →
    (∃ r, s.resultOf (.s2d 0) = some r ∧ degrees r = 0) ∧
    (∃ r, s.resultOf (.s2d 4096) = some r ∧ degrees r = 360) ∧
    (∀ a b : StepCount, a.toNat + b.toNat ≤ 8191 →
      ∃ x y, s.resultOf (.s2d a) = some x ∧ s.resultOf (.s2d b) = some y ∧
        s.resultOf (.s2d (a + b)) = some (x + y) ∧ degrees (x + y) = degrees x + degrees y) ∧
    (∀ n : StepCount, n.toNat < 4096 → ∃ r, s.resultOf (.s2d n) = some r ∧ 0 ≤ degrees r ∧ degrees r < 360)

/-- 41_angle.md R107: both angle commands multiply by 45 and by nothing else, and agree wherever REL's displacement is
not negative. -/
def Obligations.OneConversionConstant : Prop :=
  ∀ (s : State) (k r : RawAngle) (n : StepCount), s.mode = .run →
    (∃ t, exec (.rel k r) s = .next t ∧ t.res.toInt = 45 * displacement r k) ∧
    (∃ t, exec (.s2d n) s = .next t ∧ t.res.toInt = 45 * n.toNat) ∧
    (displacement r k = n.toNat → exec (.rel k r) s = exec (.s2d n) s)

/-- 41_angle.md R108, R100: a DEGQ result is the real number s * 360 / 4096 exactly, and binary64 holds the constant,
the product and so the result exactly (the reading of binary64 is PRESUMED, log 13). -/
def Obligations.DegreesAreTheRealNumbers : Prop :=
  (∀ (s : State) (n : StepCount), s.mode = .run →
    ∃ t, exec (.s2d n) s = .next t ∧ degrees t.res = (n.toNat : ℚ) * 360 / 4096 ∧
      degrees t.res = (t.res.toInt : ℚ) / 512 ∧ Reference.isBinary64 (degrees t.res)) ∧
  (∀ (s : State) (k r : RawAngle), s.mode = .run →
    ∃ t, exec (.rel k r) s = .next t ∧ degrees t.res = (displacement r k : ℚ) * 360 / 4096 ∧
      degrees t.res = (t.res.toInt : ℚ) / 512 ∧ Reference.isBinary64 (degrees t.res)) ∧
  (360 / 4096 : ℚ) = 0.087890625 ∧ Reference.isBinary64 (360 / 4096) ∧
  (∀ n : ℤ, |n| ≤ 8191 → Reference.isBinary64 (n * (360 / 4096)))

/-! ## Whole-machine rules -/

/-- 10_state.md R26, R21: a command changes at most one register: in RUN either RES alone, with ERR still NONE, or ERR
alone; in FAULT neither; and it never touches the host's edges. -/
def Obligations.CommandFrame : Prop :=
  ∀ (i : Instr) (s : State),
    ∃ t, exec i s = .next t ∧ t.edges = s.edges ∧
      (s.mode = .fault → t = s) ∧
      (s.mode = .run →
        (t.err = .none ∧ t = { s with res := t.res }) ∨ (t.err ≠ .none ∧ t = { s with err := t.err }))

/-- 10_state.md R26: "No command reads RES": two states that agree on ERR give the same error, the same result where
there is one, and each keeps its own RES where there is none. -/
def Obligations.NoCommandReadsRes : Prop :=
  ∀ (i : Instr) (s s' : State), s.err = s'.err →
    ∃ t t', exec i s = .next t ∧ exec i s' = .next t' ∧ t.err = t'.err ∧ s.resultOf i = s'.resultOf i ∧
      ((s.resultOf i = some t.res ∧ t'.res = t.res) ∨ (s.resultOf i = none ∧ t.res = s.res ∧ t'.res = s'.res))

/-- Every edge keeps RES a value some command can have left (10_state.md R21, 41_angle.md R100), from every state in
which it is one. -/
def Obligations.StepKeepsResAResult : Prop :=
  ∀ s t : State, s.resHoldsResult → step s = .next t → t.resHoldsResult

/-- The invariant holds at reset (10_state.md R30). -/
def Obligations.ResetResIsAResult : Prop := State.reset.resHoldsResult

/-- 70_reset_and_hazards.md R147 with 60_exceptions.md R124 over runs of commands: from RUN, the run ends with
STAT.ERR = 0 exactly when every word was a command without error, RES may then be used, and it is the last command's
result by the arithmetic reference. -/
def Obligations.CleanRunCompletedEveryCommand : Prop :=
  ∀ (cs : List Word) (s : State), s.mode = .run →
    ∃ t, Host.Core.run core cs.length (s.presentAll cs) = .next t ∧ t.edges = [] ∧
      (t.err = .none ↔ ∀ c ∈ cs, ∃ v, Reference.result Config.llmFth.toNat c.toNat = .ok v) ∧
      (t.err = .none → t.usableResult = some t.res ∧
        ∀ c, cs.getLast? = some c → Reference.result Config.llmFth.toNat c.toNat = .ok t.res.toNat)

/-- 70_reset_and_hazards.md R147 and 60_exceptions.md R123 over runs of commands: when a run of commands from RUN ends
faulted, the code kept is that of the FIRST word that raises an error, and RES is the result of the command before
it, or what RES held at the start. -/
def Obligations.FaultedRunKeepsTheFirstError : Prop :=
  ∀ (before after : List Word) (c : Word) (e : Nat) (s : State), s.mode = .run →
    (∀ b ∈ before, ∃ v, Reference.result Config.llmFth.toNat b.toNat = .ok v) →
    Reference.result Config.llmFth.toNat c.toNat = .error e →
    ∃ t, Host.Core.run core (before ++ c :: after).length (s.presentAll (before ++ c :: after)) = .next t ∧
      t.err.bits.toNat = e ∧ t.outputs.err = true ∧
      (before = [] → t.res = s.res) ∧
      (∀ b, before.getLast? = some b → Reference.result Config.llmFth.toNat b.toNat = .ok t.res.toNat)
end

