-- ==== Sys2Proof/Laws/Operands.lean ====
section
/-! SUPPORT. The field operations bit by bit, for any descriptor, and the degree format as an integer. -/

namespace Sys2Proof

theorem ones_getLsbD (w b : Nat) : (ones w).getLsbD b = decide (b < 16 ∧ b < w) := by
  simp [ones, BitVec.getLsbD_ofNat]

/-- The mask has the field's bits and no other. -/
theorem FieldDescr.mask_getLsbD (d : FieldDescr) (b : Nat) :
    d.mask.getLsbD b = decide (b < 16 ∧ d.off ≤ b ∧ b < d.off + d.width) := by
  simp only [FieldDescr.mask, BitVec.getLsbD_shiftLeft, ones_getLsbD]
  rw [Bool.eq_iff_iff]
  simp only [Bool.and_eq_true, Bool.not_eq_true', decide_eq_true_eq, decide_eq_false_iff_not]
  omega

theorem FieldDescr.keep_getLsbD (d : FieldDescr) (b : Nat) :
    d.keep.getLsbD b = decide (b < 16 ∧ ¬ (d.off ≤ b ∧ b < d.off + d.width)) := by
  simp only [FieldDescr.keep, BitVec.getLsbD_not, mask_getLsbD]
  by_cases h : b < 16 <;> simp only [h, decide_true, decide_false, Bool.true_and, Bool.false_and, true_and, false_and,
    decide_not]

/-- The extracted value's bit b is the word's bit off + b. -/
theorem FieldDescr.extract_getLsbD (d : FieldDescr) (word : ConfigWord) (b : Nat) :
    (d.extract word).getLsbD b = (word.getLsbD (d.off + b) && decide (b < d.width)) := by
  simp only [FieldDescr.extract, BitVec.getLsbD_and, BitVec.getLsbD_ushiftRight, ones_getLsbD]
  by_cases h : b < 16
  · simp [h]
  · simp [BitVec.getLsbD_of_ge word (d.off + b) (by omega)]

/-- A value that fits has no bit at or above the field's width. -/
theorem FieldDescr.getLsbD_of_fits {d : FieldDescr} {val : FieldValue} (h : d.fits val = true) {b : Nat}
    (hb : d.width ≤ b) : val.getLsbD b = false := by
  have hlt : val.toNat < 2 ^ b :=
    Nat.lt_of_lt_of_le (by simpa [FieldDescr.fits] using h) (Nat.pow_le_pow_right (by decide) hb)
  simpa [BitVec.getLsbD] using Nat.testBit_lt_two_pow hlt

/-- The replaced word's bit b is the value's bit b - off inside the field and the word's bit b outside it. -/
theorem FieldDescr.insert_getLsbD {d : FieldDescr} {val : FieldValue} (h : d.fits val = true) (word : ConfigWord)
    {b : Nat} (hb : b < 16) :
    (d.insert word val).getLsbD b =
      if d.off ≤ b ∧ b < d.off + d.width then val.getLsbD (b - d.off) else word.getLsbD b := by
  simp only [FieldDescr.insert, BitVec.getLsbD_or, BitVec.getLsbD_and, BitVec.getLsbD_shiftLeft,
    BitVec.getLsbD_setWidth, keep_getLsbD]
  by_cases h1 : b < d.off
  · simp [hb, h1, Nat.not_le.mpr h1]
  · by_cases h2 : b < d.off + d.width
    · simp [hb, h1, h2, Nat.not_lt.mp h1, show b - d.off < 16 by omega]
    · simp [hb, h1, h2, getLsbD_of_fits h (show d.width ≤ b - d.off by omega)]

/-- No displacement and no step count of ACC is too large for DEGQ: the pattern's integer is 45 times the steps. -/
theorem degq_toInt {n : Int} (h1 : -40000000 ≤ n) (h2 : n ≤ 40000000) : (degq n).toInt = 45 * n := by
  simp only [degq, Config.kDeg, BitVec.toInt_ofInt]
  exact Int.bmod_eq_of_le (by omega) (by omega)

/-- The displacement is congruent to raw - center, and lies in a window of one revolution. -/
theorem displacement_spec (raw center : RawAngle) :
    ∃ k : Int, displacement raw center = raw.toNat - center.toNat + 4096 * k ∧
      -2048 ≤ displacement raw center ∧ displacement raw center < 2048 := by
  refine ⟨-(((raw.toNat : Int) - center.toNat + 2048) / 4096), ?_⟩
  simp only [displacement, Config.half, Config.stepsPerRev]
  omega

end Sys2Proof
end

