-- ==== Sys2Proof/Laws/State.lean ====
section
/-! SUPPORT. What each update of State does to each field, and what is read off STAT.ERR. -/

namespace Sys2Proof.Machine

section Updates

variable (s : State) (v : Word) (c : Cause) (w : Word) (cs : List Word)

@[simp] theorem State.writeRes_res : (s.writeRes v).res = v := rfl
@[simp] theorem State.writeRes_err : (s.writeRes v).err = s.err := rfl
@[simp] theorem State.writeRes_edges : (s.writeRes v).edges = s.edges := rfl

@[simp] theorem State.errorEntry_res : (s.errorEntry c).res = s.res := rfl
@[simp] theorem State.errorEntry_err : (s.errorEntry c).err = c.code := rfl
@[simp] theorem State.errorEntry_edges : (s.errorEntry c).edges = s.edges := rfl

@[simp] theorem State.resetEdge_res : s.resetEdge.res = 0 := rfl
@[simp] theorem State.resetEdge_err : s.resetEdge.err = .none := rfl
@[simp] theorem State.resetEdge_edges : s.resetEdge.edges = s.edges := rfl

@[simp] theorem State.idleEdge_res : s.idleEdge.res = s.res := rfl
@[simp] theorem State.idleEdge_err : s.idleEdge.err = s.err := rfl
@[simp] theorem State.idleEdge_edges : s.idleEdge.edges = s.edges := rfl

@[simp] theorem State.present_res : (s.present w).res = s.res := rfl
@[simp] theorem State.present_err : (s.present w).err = s.err := rfl
@[simp] theorem State.present_edges : (s.present w).edges = .ofCommand w :: s.edges.tail := rfl

@[simp] theorem State.presentAll_res : (s.presentAll cs).res = s.res := rfl
@[simp] theorem State.presentAll_err : (s.presentAll cs).err = s.err := rfl
@[simp] theorem State.presentAll_edges : (s.presentAll cs).edges = cs.map .ofCommand := rfl

@[simp] theorem State.outputs_res : s.outputs.res = s.res := rfl
@[simp] theorem State.outputs_stat : s.outputs.stat = s.stat := rfl
@[simp] theorem State.outputs_err : s.outputs.err = s.flt := rfl

end Updates

/-- The code an error records is never NONE. -/
theorem Cause.code_ne_none (c : Cause) : c.code ≠ .none := by cases c <;> decide

theorem State.mode_eq_run {s : State} : s.mode = .run ↔ s.err = .none := by
  unfold State.mode; split <;> simp_all

theorem State.mode_eq_fault {s : State} : s.mode = .fault ↔ s.err ≠ .none := by
  unfold State.mode; split <;> simp_all

theorem State.flt_eq_true {s : State} : s.flt = true ↔ s.err ≠ .none := by
  simp [State.flt]

theorem State.flt_eq_false {s : State} : s.flt = false ↔ s.err = .none := by
  simp [State.flt]

theorem ErrCode.bits_eq_zero {e : ErrCode} : e.bits = 0 ↔ e = .none := by
  cases e <;> decide

theorem ErrCode.ofBits_bits (e : ErrCode) : ErrCode.ofBits e.bits = e := by
  cases e <;> rfl

end Sys2Proof.Machine
end

