-- ==== Sys2Proof/Laws/Ops.lean ====
section
/-! SUPPORT. Everything the completion of a command, exec and one edge can do. Later proofs cite these and unfold
neither `complete` nor `exec` nor `step`. -/

namespace Sys2Proof.Machine

theorem complete_in_fault {r : Except Cause Word} {s : State} (h : s.err ≠ .none) : complete r s = .next s := by
  simp [complete, State.mode_eq_fault.mpr h]

theorem complete_ok {v : Word} {s : State} (h : s.err = .none) : complete (.ok v) s = .next (s.writeRes v) := by
  simp [complete, State.mode_eq_run.mpr h]

theorem complete_error {c : Cause} {s : State} (h : s.err = .none) :
    complete (.error c) s = .next (s.errorEntry c) := by
  simp [complete, State.mode_eq_run.mpr h]

/-- A completion is one of three: no effect in FAULT, a result written, an error entered. -/
theorem complete_cases (r : Except Cause Word) (s : State) :
    (s.err ≠ .none ∧ complete r s = .next s) ∨
    (∃ v, s.err = .none ∧ r = .ok v ∧ complete r s = .next (s.writeRes v)) ∨
    (∃ c, s.err = .none ∧ r = .error c ∧ complete r s = .next (s.errorEntry c)) := by
  by_cases h : s.err = .none
  · cases r with
    | ok v => exact .inr (.inl ⟨v, h, rfl, complete_ok h⟩)
    | error c => exact .inr (.inr ⟨c, h, rfl, complete_error h⟩)
  · exact .inl ⟨h, complete_in_fault h⟩

/-- What a command computes, by its rule: a result for RES or an error, from its operands alone. -/
def resultOfInstr : Instr → Except Cause Word
  | .getf fsel word => getfResult fsel word
  | .setf val fsel word => setfResult val fsel word
  | .mask fsel => maskResult fsel
  | .llm word => llmResult word
  | .s2d steps => s2dResult steps
  | .rel center raw => relResult center raw

/-- Every command is the completion of what it computes. -/
theorem exec_eq_complete (i : Instr) (s : State) : exec i s = complete (resultOfInstr i) s := by
  cases i <;> rfl

/-- What a command word asks for: its command's result, or ILLEGAL_CMD. -/
def resultOfWord (c : Word) : Except Cause Word :=
  match decode c with
  | .ok i => resultOfInstr i
  | .error _ => .error .illegalCmd

/-- An edge of the list, by what it asks of the machine. -/
theorem step_of_edges {s : State} {e : EdgeInput} {rest : List EdgeInput} (h : s.edges = e :: rest) :
    step s =
      match e.action with
      | .reset => .next ({ s with edges := rest } : State).resetEdge
      | .idle => .next { s with edges := rest }
      | .command c => complete (resultOfWord c) { s with edges := rest } := by
  simp only [step, State.nextEdge, h]
  cases e.action with
  | reset => rfl
  | idle => rfl
  | command c =>
    simp only [resultOfWord]
    cases decode c with
    | ok i => exact exec_eq_complete i _
    | error d => rfl

/-- A run of k + 1 edges is its first edge and then a run of k. -/
theorem run_succ (M : Host.Core) {k : Nat} {s t : M.State} (h : M.step s = .next t) :
    M.run (k + 1) s = M.run k t := by
  simp only [Host.Core.run, h]

/-- The same for ACC, with the model's own step. -/
theorem core_run_succ {k : Nat} {s t : State} (h : step s = .next t) :
    Host.Core.run core (k + 1) s = Host.Core.run core k t := run_succ core h

end Sys2Proof.Machine
end

