-- ==== Sys2Proof/Laws/Codec.lean ====
section
/-! SUPPORT. What each command computes, by the form of its operands, and the bounds of the open parameter. -/

namespace Sys2Proof.Machine

theorem getfResult_named (f : Field) (word : ConfigWord) :
    getfResult (.named f) word = .ok (((Config.fieldTable.get f).extract word).setWidth 32) := rfl

theorem getfResult_reserved (word : ConfigWord) : getfResult .reserved word = .error .illegalField := rfl

theorem setfResult_fits {val : FieldValue} {f : Field} (h : (Config.fieldTable.get f).fits val = true)
    (word : ConfigWord) :
    setfResult val (.named f) word = .ok (((Config.fieldTable.get f).insert word val).setWidth 32) := if_pos h

theorem setfResult_too_wide {val : FieldValue} {f : Field} (h : ¬ (Config.fieldTable.get f).fits val = true)
    (word : ConfigWord) : setfResult val (.named f) word = .error .range := if_neg h

theorem setfResult_reserved (val : FieldValue) (word : ConfigWord) :
    setfResult val .reserved word = .error .illegalField := rfl

theorem maskResult_named (f : Field) :
    maskResult (.named f) = .ok ((Config.fieldTable.get f).mask.setWidth 32) := rfl

theorem maskResult_reserved : maskResult .reserved = .error .illegalField := rfl

/-- Every field of the table in force lies inside the word (00_scope.md R8). -/
theorem fieldTable_inside (f : Field) :
    (Config.fieldTable.get f).off + (Config.fieldTable.get f).width ≤ 16 := by
  cases f <;> decide

/-- LLM_FTH's bounds, all that is known of it (00_scope.md R9). -/
theorem llmFth_bounds : 1 ≤ Config.llmFth.toNat ∧ Config.llmFth.toNat ≤ 7 := by
  have h := Config.llmFthIndex.isLt
  simp only [Config.llmFth, BitVec.toNat_ofNat]
  omega

/-- LLM_FTH fits FTH, so LLM raises no RANGE (40_codec.md R85). -/
theorem llmFth_fits : (Config.fieldTable.get .fth).fits Config.llmFth = true := decide_eq_true Config.llmFth.isLt

/-- A codec result read back as a 16-bit word is the word (10_state.md R21: bits [31:16] are 0). -/
theorem setWidth_result (w : ConfigWord) : (w.setWidth 32 : Word).setWidth 16 = w := by
  apply BitVec.eq_of_toNat_eq
  have h := w.isLt
  simp only [BitVec.toNat_setWidth]
  omega

/-- A field's value as a number (40_codec.md R82). -/
theorem extract_toNat_eq (d : FieldDescr) (word : ConfigWord) (h : d.off + d.width ≤ 16) :
    (d.extract word).toNat = word.toNat / 2 ^ d.off % 2 ^ d.width := by
  have hpow : 2 ^ d.width ≤ 2 ^ 16 := Nat.pow_le_pow_right (by decide) (by omega)
  have hones : (ones d.width).toNat = 2 ^ d.width - 1 := by
    rw [ones, BitVec.toNat_ofNat]
    exact Nat.mod_eq_of_lt (by omega)
  simp only [FieldDescr.extract, BitVec.toNat_and, BitVec.toNat_ushiftRight, hones, Nat.shiftRight_eq_div_pow,
    Nat.and_two_pow_sub_one_eq_mod]

end Sys2Proof.Machine
end

