-- ==== Sys2Proof/Laws/Decode.lean ====
section
/-! SUPPORT. The fields of the three formats, read back from a word built from them. -/

namespace Sys2Proof

theorem FieldSel.ofBits_bits (f : FieldSel) : FieldSel.ofBits f.bits = f := by
  rcases f with (_ | _ | _) | _ <;> rfl

theorem FieldSel.bits_ofBits (b : BitVec 2) : (FieldSel.ofBits b).bits = b := by
  revert b; decide

/-- An appended word as a number. -/
theorem toNat_append_eq {n m : Nat} (a : BitVec n) (b : BitVec m) :
    (a ++ b).toNat = a.toNat * 2 ^ m + b.toNat := by
  rw [BitVec.toNat_append, ← Nat.shiftLeft_add_eq_or_of_lt b.isLt, Nat.shiftLeft_eq]

/-- The number of a format F word (30_encoding.md R62). -/
theorem formatF_toNat (op : BitVec 3) (v : FieldValue) (f : FieldSel) (w : ConfigWord) :
    (formatF op v f w).toNat = op.toNat * 2 ^ 29 + v.toNat * 2 ^ 18 + f.bits.toNat * 2 ^ 16 + w.toNat := by
  simp only [formatF, toNat_append_eq, BitVec.ofNat_eq_ofNat, BitVec.toNat_ofNat]
  omega

/-- The number of a format A word (30_encoding.md R63). -/
theorem formatA_toNat (op : BitVec 3) (center raw : RawAngle) :
    (formatA op center raw).toNat = op.toNat * 2 ^ 29 + center.toNat * 2 ^ 12 + raw.toNat := by
  simp only [formatA, toNat_append_eq, BitVec.ofNat_eq_ofNat, BitVec.toNat_ofNat]
  omega

/-- The number of a format S word (30_encoding.md R64). -/
theorem formatS_toNat (op : BitVec 3) (n : StepCount) :
    (formatS op n).toNat = op.toNat * 2 ^ 29 + n.toNat := by
  simp only [formatS, toNat_append_eq, BitVec.ofNat_eq_ofNat, BitVec.toNat_ofNat]
  omega

/-- A bit range of a command word as a number (00_scope.md R10). -/
theorem extract_toNat (c : Word) (lo len : Nat) : (c.extractLsb' lo len).toNat = c.toNat / 2 ^ lo % 2 ^ len := by
  simp [BitVec.extractLsb'_toNat, Nat.shiftRight_eq_div_pow]

/-- OP as a number (30_encoding.md R61). -/
theorem opField_toNat (c : Word) : (opField c).toNat = c.toNat / 2 ^ 29 := by
  have h := c.isLt
  rw [opField, extract_toNat]
  omega

/-- A row of the decoder gives a command only if its reserved bits are zero, and then its own. -/
theorem rowResult_eq_ok {zero : Bool} {i j : Instr} : rowResult zero i = .ok j ↔ zero = true ∧ i = j := by
  cases zero <;> simp [rowResult]

end Sys2Proof
end

