-- ==== Sys2Proof/Laws/PerInstr.lean ====
section
/-! SUPPORT. Laws said of every command as a term, one lemma a constructor (LAWS.json, per_instruction). -/

namespace Sys2Proof.Laws.EncodesInItsRow

/-- The command's word has its opcode row's fixed bits, the reserved-zero bits among them (30_encoding.md R66), and
the row is the one of the command's own mnemonic. -/
def Statement (i : Instr) : Prop :=
  i.mnemonic.row.selects (encode i) = true ∧ i.mnemonic.row.mnemonic = some i.mnemonic

/-- Where a row's mask is all the bits from lo on, a word is selected if its number above those bits is the match's. -/
theorem selects_of_high {r : OpcodeRow} {c : Word} (lo : Nat) (hm : r.mask = BitVec.allOnes 32 >>> lo <<< lo)
    (hv : c.toNat / 2 ^ lo * 2 ^ lo = r.value.toNat) : r.selects c = true := by
  have hc := c.isLt
  have hle := Nat.div_mul_le_self c.toNat (2 ^ lo)
  have hr : c >>> lo <<< lo = r.value := by
    apply BitVec.eq_of_toNat_eq
    rw [BitVec.toNat_shiftLeft, BitVec.toNat_ushiftRight, Nat.shiftRight_eq_div_pow, Nat.shiftLeft_eq, hv]
    omega
  rw [OpcodeRow.selects, hm, beq_iff_eq, ← hr]
  ext b hb
  by_cases h : b < lo
  · simp [h]
  · simp [h, hb, show lo + (b - lo) = b by omega, -BitVec.reduceAllOnes]

theorem getf (fsel : FieldSel) (word : ConfigWord) : Statement (.getf fsel word) := by
  refine ⟨selects_of_high 18 rfl ?_, rfl⟩
  have h := fsel.bits.isLt
  have h' := word.isLt
  simp only [encode, formatF_toNat, Instr.mnemonic, Mnemonic.row, BitVec.ofNat_eq_ofNat, BitVec.toNat_ofNat]
  omega

theorem setf (val : FieldValue) (fsel : FieldSel) (word : ConfigWord) : Statement (.setf val fsel word) := by
  refine ⟨selects_of_high 21 rfl ?_, rfl⟩
  have h := fsel.bits.isLt
  have h' := word.isLt
  have h'' := val.isLt
  simp only [encode, formatF_toNat, Instr.mnemonic, Mnemonic.row, BitVec.ofNat_eq_ofNat, BitVec.toNat_ofNat]
  omega

theorem mask (fsel : FieldSel) : Statement (.mask fsel) := by
  rcases fsel with (_ | _ | _) | _ <;> exact ⟨by decide, rfl⟩

theorem llm (word : ConfigWord) : Statement (.llm word) := by
  refine ⟨selects_of_high 16 rfl ?_, rfl⟩
  have h' := word.isLt
  simp only [encode, formatF_toNat, Instr.mnemonic, Mnemonic.row, FieldSel.bits, BitVec.ofNat_eq_ofNat, BitVec.toNat_ofNat]
  omega

theorem s2d (steps : StepCount) : Statement (.s2d steps) := by
  refine ⟨selects_of_high 13 rfl ?_, rfl⟩
  have h := steps.isLt
  simp only [encode, formatS_toNat, Instr.mnemonic, Mnemonic.row, BitVec.ofNat_eq_ofNat, BitVec.toNat_ofNat]
  omega

theorem rel (center raw : RawAngle) : Statement (.rel center raw) := by
  refine ⟨selects_of_high 24 rfl ?_, rfl⟩
  have h := center.isLt
  have h' := raw.isLt
  simp only [encode, formatA_toNat, Instr.mnemonic, Mnemonic.row, BitVec.ofNat_eq_ofNat, BitVec.toNat_ofNat]
  omega

end Sys2Proof.Laws.EncodesInItsRow
end

