-- ==== Sys2Proof/Tests/Slice0.lean ====
section
/-! SUPPORT. Tests against the vectors of 95_test_vectors.md and the examples of the rules, the smoke tests of
WellFormed.lean, and a witness for the hypotheses of every statement that has some. -/

namespace Sys2Proof.Tests

open Sys2Proof.Machine

/-- RES and STAT.ERR after one edge that presents a word, from given registers. -/
def after (res : Word) (err : ErrCode) (c : Word) : Option (Word × ErrCode) :=
  match step (State.present { res := res, err := err, edges := [] } c) with
  | .next t => some (t.res, t.err)
  | .fault _ => none
  | .refused _ => none

/-! ## Decoding: words written out from the formats of 30_encoding.md R62, R63, R64 -/

theorem test_decode_getf :
    decode 0b001_00000000_000_01_0001101000000011 = .ok (.getf (.named .fth) 0x1A03) := by decide

theorem test_decode_setf :
    decode 0b010_00000000_101_10_1000000000000001 = .ok (.setf 5 (.named .pm) 0x8001) := by decide

theorem test_decode_mask :
    decode 0b011_00000000_000_11_0000000000000000 = .ok (.mask .reserved) := by decide

theorem test_decode_llm :
    decode 0b100_00000000_000_00_1111111111111110 = .ok (.llm 0xFFFE) := by decide

theorem test_decode_s2d :
    decode 0b101_0000000000000000_1000000000001 = .ok (.s2d 4097) := by decide

theorem test_decode_rel :
    decode 0b110_00000_100000000001_000000000010 = .ok (.rel 2049 2) := by decide

theorem test_decode_reserved_opcodes :
    decode 0x00000000 = .error (.reservedOpcode 0) ∧ decode 0xFFFFFFFF = .error (.reservedOpcode 7) := by decide

/-- One reserved-zero bit a row: the lowest and the highest of each kind (30_encoding.md R66, R67; L2.1 to L2.6). -/
theorem test_decode_reserved_bits :
    decode 0x20040000 = .error (.reservedZeroBits .getf) ∧ decode 0x30000000 = .error (.reservedZeroBits .getf) ∧
    decode 0x40200000 = .error (.reservedZeroBits .setf) ∧ decode 0x60000001 = .error (.reservedZeroBits .mask) ∧
    decode 0x60040000 = .error (.reservedZeroBits .mask) ∧ decode 0x80010000 = .error (.reservedZeroBits .llm) ∧
    decode 0xA0002000 = .error (.reservedZeroBits .s2d) ∧ decode 0xC1000000 = .error (.reservedZeroBits .rel) := by
  decide

theorem test_opcode_map_rows_do_not_overlap :
    opcodeMap.Pairwise (fun r q => (r.value ^^^ q.value) &&& (r.mask &&& q.mask) ≠ 0) := by decide

theorem test_table_word_shorter_row : decodeTableWord 16 0xFFFF = none ∧ decodeTableWord 40 0x60000000 = none ∧
    decodeTableWord 32 0x60000000 = some (.mask (.named .sf)) := by decide

/-! ## Commands: 95_test_vectors.md L2 -/

theorem test_getf_fields :
    after 0 .none 0x20001A03 = some (0x2, .none) ∧ after 0 .none 0x20011A03 = some (0x6, .none) ∧
    after 0 .none 0x20021A03 = some (0x3, .none) ∧ after 0 .none 0x2000E0FC = some (0x0, .none) := by decide

theorem test_getf_errors :
    after 0 .none 0x20031234 = some (0, .illegalField) ∧ after 0 .none 0x21000000 = some (0, .illegalCmd) := by decide

theorem test_setf_fields :
    after 0 .none 0x4000FFFF = some (0xFCFF, .none) ∧ after 0 .none 0x401D0000 = some (0x1C00, .none) ∧
    after 0 .none 0x40041A03 = some (0x1903, .none) ∧ after 0 .none 0x40191A03 = some (0x1A03, .none) := by decide

theorem test_setf_errors :
    after 7 .none 0x40120000 = some (7, .range) ∧ after 7 .none 0x401C0000 = some (7, .range) ∧
    after 7 .none 0x40171234 = some (7, .illegalField) ∧ after 7 .none 0x40F71234 = some (7, .illegalCmd) := by decide

theorem test_mask_fields :
    after 0 .none 0x60000000 = some (0x0300, .none) ∧ after 0 .none 0x60010000 = some (0x1C00, .none) ∧
    after 0 .none 0x60020000 = some (0x0003, .none) := by decide

theorem test_mask_errors :
    after 0 .none 0x60030000 = some (0, .illegalField) ∧ after 0 .none 0x60000001 = some (0, .illegalCmd) := by decide

/-- L2.4, for the two ends of LLM_FTH's range. -/
theorem test_llm_words :
    Config.fieldTable.lowLatency Config.llmSf 1 0x1A03 = 0x0403 ∧
    Config.fieldTable.lowLatency Config.llmSf 7 0x1A03 = 0x1C03 ∧
    Config.fieldTable.lowLatency Config.llmSf 1 0xFFFF = 0xE4FF ∧
    Config.fieldTable.lowLatency Config.llmSf 7 0xFFFF = 0xFCFF := by decide

theorem test_llm_completes : (after 0 .none 0x80001A03).map Prod.snd = some .none := rfl

theorem test_s2d_values :
    after 0 .none 0xA0000001 = some (0x2D, .none) ∧ after 0 .none 0xA0001000 = some (0x0002D000, .none) ∧
    after 0 .none 0xA0001FFF = some (0x00059FD3, .none) ∧ after 0 .none 0xA0002000 = some (0, .illegalCmd) := by decide

theorem test_rel_wraps :
    after 0 .none 0xC0FFF001 = some (0x5A, .none) ∧ after 0 .none 0xC0001FFF = some (0xFFFFFFA6, .none) ∧
    after 0 .none 0xC0000800 = some (0xFFFE9800, .none) ∧ after 0 .none 0xC0800000 = some (0xFFFE9800, .none) := by decide

theorem test_rel_ends :
    after 0 .none 0xC00007FF = some (0x000167D3, .none) ∧ after 0 .none 0xC0000801 = some (0xFFFE982D, .none) ∧
    after 0 .none 0xC0BB83E8 = some (0xFFFEA070, .none) ∧ after 0 .none 0xC03E8BB8 = some (0x00015F90, .none) := by decide

/-! ## The edge: 95_test_vectors.md L2.7 -/

theorem test_fault_gating :
    after 0x1234 .range 0xA0000001 = some (0x1234, .range) ∧
    after 0x1234 .illegalField 0x00000000 = some (0x1234, .illegalField) := by decide

theorem test_all_zero_word : after 0 .none 0x00000000 = some (0, .illegalCmd) := by decide

theorem test_reset_edge :
    step { res := 0x1234, err := .illegalCmd, edges := [⟨false, true, 0xA0000001⟩] } = .next State.reset := rfl

theorem test_idle_edge :
    step { res := 0x5A, err := .none, edges := [⟨true, false, 0xA0000001⟩] } =
      .next { res := 0x5A, err := .none, edges := [] } := rfl

theorem test_stat_word :
    State.reset.stat = 0 ∧ ({ State.reset with err := .range } : State).stat = 5 ∧
    ({ State.reset with err := .illegalField } : State).stat = 6 ∧
    ({ State.reset with err := .illegalCmd } : State).stat = 7 := by decide

/-! ## The assembler: 30_encoding.md R72, R73; 95_test_vectors.md L2, L3 -/

theorem test_assembler_text :
    Asm.text "SETF 0x1F03, SF, 2\nFDIS 0x1E03  # clear FTH\n\n  ABSDEG 2048\nGETF 0x1234, 3".toList =
      .ok [0x40081F03, 0x40011E03, 0xC0000800, 0x20031234] := by decide

theorem test_assembler_refusals :
    Asm.word "SETF 0, SF, 8".toList = .error .tooWide ∧ Asm.word "REL 1".toList = .error .unknownLine ∧
    Asm.word "MASK XY".toList = .error .badOperand := by decide

/-! ## WellFormed: one ill-formed term a check -/

theorem smoke_field_outside_the_word : (⟨⟨15, 2⟩, ⟨10, 3⟩, ⟨0, 2⟩⟩ : FieldTable).checked = none := by decide
theorem smoke_threshold_outside_the_word : (⟨⟨8, 2⟩, ⟨14, 3⟩, ⟨0, 2⟩⟩ : FieldTable).checked = none := by decide
theorem smoke_power_mode_outside_the_word : (⟨⟨8, 2⟩, ⟨10, 3⟩, ⟨16, 2⟩⟩ : FieldTable).checked = none := by decide
theorem smoke_slow_filter_meets_threshold : (⟨⟨9, 2⟩, ⟨10, 3⟩, ⟨0, 2⟩⟩ : FieldTable).checked = none := by decide
theorem smoke_slow_filter_meets_power_mode : (⟨⟨1, 2⟩, ⟨10, 3⟩, ⟨0, 2⟩⟩ : FieldTable).checked = none := by decide
theorem smoke_threshold_meets_power_mode : (⟨⟨8, 2⟩, ⟨10, 3⟩, ⟨12, 2⟩⟩ : FieldTable).checked = none := by decide
theorem smoke_table_in_force : Config.fieldTable.checked = some Config.fieldTable := by decide

theorem smoke_word_too_wide :
    (AsmLine.getf 65536 (.number 3)).wf = false ∧ (AsmLine.setf 65536 (.named .sf) 0).wf = false ∧
    (AsmLine.llm 65536).wf = false ∧ (AsmLine.clrf 65536 (.named .pm)).wf = false ∧
    (AsmLine.fdis 65536).wf = false := by decide
theorem smoke_field_number_too_wide :
    (AsmLine.getf 0 (.number 4)).wf = false ∧ (AsmLine.setf 0 (.number 4) 0).wf = false ∧
    (AsmLine.mask (.number 4)).wf = false ∧ (AsmLine.clrf 0 (.number 4)).wf = false := by decide
theorem smoke_value_too_wide : (AsmLine.setf 0 (.named .fth) 8).wf = false := by decide
theorem smoke_steps_too_wide : (AsmLine.s2d 8192).wf = false := by decide
theorem smoke_angle_too_wide :
    (AsmLine.rel 4096 0).wf = false ∧ (AsmLine.rel 0 4096).wf = false ∧ (AsmLine.absdeg 4096).wf = false := by decide
theorem smoke_widest_operands :
    (AsmLine.setf 65535 (.number 3) 7).wf = true ∧ (AsmLine.s2d 8191).wf = true ∧
    (AsmLine.rel 4095 4095).wf = true := by decide

/-! ## Witnesses: a concrete state and operands that meet the hypotheses of each statement -/

/-- A RUN state about to accept a word. -/
def accepting (c : Word) : State := { res := 0x5A, err := .none, edges := [.ofCommand c] }

/-- The same in the fault state. -/
def faultedWith (c : Word) : State := { res := 0x5A, err := .range, edges := [.ofCommand c] }

theorem accepting_accepts (c : Word) : (accepting c).accepts c [] := ⟨rfl, rfl⟩

theorem witness_EncodeOfDecodeIsTheWord : decode 0xC0FFF001 = .ok (.rel 4095 1) := by decide

theorem witness_OperandsAreTheirBitRanges :
    decode 0x2003FFFF = .ok (.getf .reserved 0xFFFF) ∧ decode 0x401FFFFF = .ok (.setf 7 .reserved 0xFFFF) ∧
    decode 0x60030000 = .ok (.mask .reserved) ∧ decode 0x8000FFFF = .ok (.llm 0xFFFF) ∧
    decode 0xA0001FFF = .ok (.s2d 8191) ∧ decode 0xC0FFFFFF = .ok (.rel 4095 4095) := by decide

theorem witness_IllegalWordsRaiseIllegalCommand :
    (accepting 0x1FFFFFFF).accepts 0x1FFFFFFF [] ∧ (0x1FFFFFFF : Word).toNat / 2 ^ 29 = 0 ∧
    (0xE0000000 : Word).toNat / 2 ^ 29 = 7 ∧
    Reference.reservedBitSet (0x20040000 : Word).toNat ∧ Reference.reservedBitSet (0x40200000 : Word).toNat ∧
    Reference.reservedBitSet (0x60000001 : Word).toNat ∧ Reference.reservedBitSet (0x80010000 : Word).toNat ∧
    Reference.reservedBitSet (0xA0002000 : Word).toNat ∧ Reference.reservedBitSet (0xC1000000 : Word).toNat ∧
    (accepting 0).accepts 0x00000000 [] := by
  exact ⟨⟨rfl, rfl⟩, by decide, by decide, by decide, by decide, by decide, by decide, by decide, by decide, rfl, rfl⟩

theorem witness_EveryWordDecodesOrIsIllegal : (accepting 0xA0000001).accepts 0xA0000001 [] := accepting_accepts _

theorem witness_ReservedSelectorRaisesIllegalField :
    State.reset.mode = .run ∧
    ((0x20030000 : Word).toNat / 2 ^ 16 % 4 = 3 ∧ (0x20030000 : Word).toNat / 2 ^ 18 = 2 ^ 11) ∧
    ((0x401FFFFF : Word).toNat / 2 ^ 16 % 4 = 3 ∧ (0x401FFFFF : Word).toNat / 2 ^ 21 = 2 ^ 9) ∧
    ((0x60030000 : Word).toNat / 2 ^ 16 % 4 = 3 ∧ (0x60030000 : Word).toNat / 2 ^ 18 = 3 * 2 ^ 11 ∧
      (0x60030000 : Word).toNat % 2 ^ 16 = 0) ∧
    decode 0x80000000 = .ok (.llm 0) := by decide

theorem witness_AssemblerKeepsTheWrittenNumbers :
    (AsmField.number 3).wf = true ∧ 0xFFFF ≤ 0xFFFF ∧ 7 ≤ 7 ∧ 8191 ≤ 8191 ∧ 4095 ≤ 4095 ∧
    ¬ (AsmField.number 4).wf = true ∧ ¬ 0x10000 ≤ 0xFFFF ∧ ¬ 8 ≤ 7 ∧ ¬ 8192 ≤ 8191 ∧ ¬ 4096 ≤ 4095 := by decide

theorem witness_StepRunsTheDecodedCommand :
    (accepting 0xA0000001).edges = ⟨true, true, 0xA0000001⟩ :: [] ∧ decode 0xA0000001 = .ok (.s2d 1) ∧
    (accepting 0x00000000).edges = ⟨true, true, 0x00000000⟩ :: [] ∧
    decode 0x00000000 = .error (.reservedOpcode 0) ∧ (accepting 0x00000000).mode = .run ∧
    (faultedWith 0x00000000).mode = .fault ∧
    ({ State.reset with edges := [⟨true, false, 0⟩] } : State).edges = ⟨true, false, 0⟩ :: [] ∧
    ({ State.reset with edges := [⟨false, true, 0⟩] } : State).edges = ⟨false, true, 0⟩ :: [] := by decide

theorem witness_UnlistedEdgesAreIdle : State.reset.edges = [] := rfl

theorem witness_PresentedTableWordRunsNext : decodeTableWord 32 0xA0001000 = some (.s2d 4096) := by decide

theorem witness_ResetEdgeClearsBothRegisters :
    (({ res := 1, err := .range, edges := [⟨false, true, 7⟩, ⟨false, false, 0⟩] } : State).edges =
      ⟨false, true, 7⟩ :: [⟨false, false, 0⟩]) ∧
    step { res := 1, err := .range, edges := [⟨false, true, 7⟩] } = .next State.reset ∧
    ErrCode.range ≠ .none ∧ State.reset.err = .none := ⟨rfl, rfl, by decide, rfl⟩

theorem witness_RegistersAfterReset : (⟨false, true, 0xA0000001⟩ : EdgeInput).rstN = false := rfl

theorem witness_EachStepUsesOneEdge :
    step (accepting 0xA0000001) = .next { res := 0x2D, err := .none, edges := [] } := rfl

theorem witness_CommandStepRefinesArithmeticReference :
    (accepting 0xA0000001).edges = EdgeInput.ofCommand 0xA0000001 :: [] ∧
    (faultedWith 0xA0000001).edges = EdgeInput.ofCommand 0xA0000001 :: [] := by decide

theorem witness_ResultStaysUntilTheNextCompletion :
    step (accepting 0xA0000001) = .next { res := 0x2D, err := .none, edges := [] } ∧
    (0x2D : Word) ≠ (accepting 0xA0000001).res := ⟨rfl, by decide⟩

theorem witness_OutputsShowTheStateBeforeTheEdge : 1 < 2 := by decide

theorem witness_ModeIsReadOffTheErrorCode :
    (faultedWith 0).mode = .fault ∧
    step { res := 1, err := .range, edges := [⟨false, true, 7⟩] } = .next State.reset ∧
    ({ res := 1, err := .range, edges := [⟨false, true, 7⟩] } : State).mode = .fault ∧
    State.reset.mode = .run := ⟨rfl, rfl, rfl, rfl⟩

theorem witness_FaultStateIgnoresEveryWord :
    (faultedWith 0xA0000001).err ≠ .none ∧ (faultedWith 0xA0000001).edges = EdgeInput.ofCommand 0xA0000001 :: [] := by
  decide

theorem witness_FirstErrorSticksUntilReset :
    (faultedWith 0xA0000001).faulted = true ∧ 1 ≤ (faultedWith 0xA0000001).edges.length ∧
    (faultedWith 0xA0000001).noResetWithin 1 := by
  refine ⟨by decide, by decide, fun e he => ?_⟩
  have h : e ∈ [EdgeInput.ofCommand 0xA0000001] := he
  rw [List.mem_singleton.mp h]
  rfl

theorem witness_ErrPortRisesWithTheFirstError :
    (accepting 0).accepts 0 [] ∧ Reference.result Config.llmFth.toNat (0 : Word).toNat = .error 3 ∧
    (accepting 0x40101234).accepts 0x40101234 [] ∧
    Reference.result Config.llmFth.toNat (0x40101234 : Word).toNat = .error 1 ∧
    step (accepting 0) = .next { res := 0x5A, err := .illegalCmd, edges := [] } ∧ (accepting 0).outputs.err = false ∧
    ({ res := 0x5A, err := .illegalCmd, edges := [] } : State).outputs.err = true ∧
    step { res := 1, err := .range, edges := [⟨false, true, 7⟩] } = .next State.reset ∧
    ({ res := 1, err := .range, edges := [⟨false, true, 7⟩] } : State).outputs.err = true ∧
    State.reset.outputs.err = false :=
  ⟨accepting_accepts _, rfl, accepting_accepts _, rfl, rfl, rfl, rfl, rfl, rfl, rfl⟩

theorem witness_ErrorEntryWritesOnlyTheCode :
    (accepting 0).accepts 0 [] ∧ step (accepting 0) = .next { res := 0x5A, err := .illegalCmd, edges := [] } ∧
    ErrCode.illegalCmd ≠ .none := ⟨accepting_accepts _, rfl, by decide⟩

/-- One word in each class of the priority, at the boundaries where the classes meet. -/
theorem witness_ErrorPriority :
    (accepting 0x40171234).accepts 0x40171234 [] ∧ (accepting 0x40F71234).accepts 0x40F71234 [] ∧
    Reference.reservedBitSet (0x40F71234 : Word).toNat ∧ ¬ Reference.reservedBitSet (0x40171234 : Word).toNat ∧
    ((0x40171234 : Word).toNat / 2 ^ 29 ≤ 3 ∧ (0x40171234 : Word).toNat / 2 ^ 16 % 4 = 3) ∧
    ¬ Reference.reservedBitSet (0x40120000 : Word).toNat ∧
    ((0x40120000 : Word).toNat / 2 ^ 29 = 2 ∧ (0x40120000 : Word).toNat / 2 ^ 16 % 4 = 2 ∧
      4 ≤ (0x40120000 : Word).toNat / 2 ^ 18 % 8) ∧
    ¬ Reference.reservedBitSet (0x401D0000 : Word).toNat ∧
    (0x401D0000 : Word).toNat / 2 ^ 16 % 4 = 1 := by
  exact ⟨⟨rfl, rfl⟩, ⟨rfl, rfl⟩, by decide, by decide, by decide, by decide, by decide, by decide, by decide⟩

theorem witness_FieldTableCheck :
    (∀ f, (Config.fieldTable.get f).off + (Config.fieldTable.get f).width ≤ 16) ∧
    ¬ (∀ f, ((⟨⟨15, 2⟩, ⟨10, 3⟩, ⟨0, 2⟩⟩ : FieldTable).get f).off +
        ((⟨⟨15, 2⟩, ⟨10, 3⟩, ⟨0, 2⟩⟩ : FieldTable).get f).width ≤ 16) ∧
    Config.fieldTable.wf = true ∧
    State.reset.resultOf (.setf 1 (.named .sf) 0x1A03) = some 0x1903 :=
  ⟨fun f => by cases f <;> decide, fun h => absurd (h .sf) (by decide), by decide, by decide⟩

theorem witness_GetfReadsTheField :
    State.reset.mode = .run ∧ (accepting 0x20040000).accepts 0x20040000 [] ∧
    (0x20040000 : Word).toNat / 2 ^ 29 = 1 ∧ (0x20040000 : Word).toNat / 2 ^ 18 % 2 ^ 11 ≠ 0 :=
  ⟨rfl, accepting_accepts _, by decide, by decide⟩

theorem witness_SetfReplacesTheField :
    State.reset.mode = .run ∧ (3 : FieldValue).toNat < 2 ^ (Config.fieldTable.get .sf).width ∧
    (7 : FieldValue).toNat < 2 ^ (Config.fieldTable.get .fth).width ∧
    2 ^ (Config.fieldTable.get .pm).width ≤ (4 : FieldValue).toNat ∧
    (accepting 0x40200000).accepts 0x40200000 [] ∧ (0x40200000 : Word).toNat / 2 ^ 29 = 2 ∧
    (0x40200000 : Word).toNat / 2 ^ 21 % 2 ^ 8 ≠ 0 :=
  ⟨rfl, by decide, by decide, by decide, accepting_accepts _, by decide, by decide⟩

theorem witness_MaskGivesTheFieldsBits :
    State.reset.mode = .run ∧ (accepting 0x60000001).accepts 0x60000001 [] ∧
    (0x60000001 : Word).toNat / 2 ^ 29 = 3 ∧ (0x60000001 : Word).toNat % 2 ^ 16 ≠ 0 ∧
    (0x60040000 : Word).toNat / 2 ^ 29 = 3 ∧ (0x60040000 : Word).toNat / 2 ^ 18 % 2 ^ 11 ≠ 0 :=
  ⟨rfl, accepting_accepts _, by decide, by decide, by decide, by decide⟩

theorem witness_LlmWritesTheLowLatencyWord :
    State.reset.mode = .run ∧ (accepting 0x80010000).accepts 0x80010000 [] ∧
    (0x80010000 : Word).toNat / 2 ^ 29 = 4 ∧ (0x80010000 : Word).toNat / 2 ^ 16 % 2 ^ 13 ≠ 0 ∧
    exec (.setf Config.llmSf (.named .sf) 0x1A03) State.reset = .next { State.reset with res := 0x1803 } ∧
    ∃ t, exec (.setf Config.llmFth (.named .fth) 0x1803) { State.reset with res := 0x1803 } = .next t :=
  ⟨rfl, accepting_accepts _, by decide, by decide, rfl, _,
    (congrArg (fun r => complete r { State.reset with res := 0x1803 }) (setfResult_fits llmFth_fits 0x1803)).trans
      (complete_ok (s := { State.reset with res := 0x1803 }) rfl)⟩

theorem witness_CodecLaws :
    State.reset.mode = .run ∧ State.reset.resultOf (.setf 1 (.named .sf) 0x1A03) = some 0x1903 ∧
    State.reset.resultOf (.getf (.named .sf) 0x1A03) = some 2 ∧
    State.reset.resultOf (.setf 3 (.named .sf) 0x1A03) = some 0x1B03 ∧ Field.fth ≠ Field.sf ∧
    State.reset.resultOf (.setf 5 (.named .fth) 0x1A03) = some 0x1603 := by decide

theorem witness_CodecLawsForEveryCheckedTable :
    (⟨⟨0, 2⟩, ⟨2, 3⟩, ⟨14, 2⟩⟩ : FieldTable).checked = some ⟨⟨0, 2⟩, ⟨2, 3⟩, ⟨14, 2⟩⟩ ∧
    ((⟨⟨0, 2⟩, ⟨2, 3⟩, ⟨14, 2⟩⟩ : FieldTable).get .pm).fits 3 = true ∧
    ((⟨⟨0, 2⟩, ⟨2, 3⟩, ⟨14, 2⟩⟩ : FieldTable).get .fth).fits 7 = true := by decide

/-- The hypothesis of the statements about a command's effect in RUN: LlmLaw, S2dMultipliesByTheConstant,
RelGivesTheCenteredDisplacement, RelIsTheTwelveBitDifference, RelRange, S2dLaws, OneConversionConstant,
DegreesAreTheRealNumbers, CleanRunCompletedEveryCommand, FaultedRunKeepsTheFirstError. -/
theorem witness_run_state : State.reset.mode = .run := rfl

theorem witness_S2dMultipliesByTheConstant :
    (accepting 0xA0002000).accepts 0xA0002000 [] ∧ (0xA0002000 : Word).toNat / 2 ^ 29 = 5 ∧
    (0xA0002000 : Word).toNat / 2 ^ 13 % 2 ^ 16 ≠ 0 := ⟨accepting_accepts _, by decide, by decide⟩

theorem witness_RelGivesTheCenteredDisplacement :
    (accepting 0xC1000000).accepts 0xC1000000 [] ∧ (0xC1000000 : Word).toNat / 2 ^ 29 = 6 ∧
    (0xC1000000 : Word).toNat / 2 ^ 24 % 2 ^ 5 ≠ 0 := ⟨accepting_accepts _, by decide, by decide⟩

theorem witness_RelRange : (-2048 : ℤ) ≤ 2047 ∧ (((2048 : RawAngle).toNat : ℤ) - (0 : RawAngle).toNat) % 4096 = 2048 := by
  decide

theorem witness_RelLaws :
    (((2047 : RawAngle).toNat : ℤ) - (0 : RawAngle).toNat) % 4096 ≠ 2048 ∧
    (((0 : RawAngle).toNat : ℤ) - (2048 : RawAngle).toNat) % 4096 = 2048 ∧
    displacement 2046 0 ≠ 2047 ∧ displacement 2047 0 = 2047 ∧
    -2048 ≤ ((0 : RawAngle).toNat : ℤ) - (2048 : RawAngle).toNat ∧
    ((2047 : RawAngle).toNat : ℤ) - (0 : RawAngle).toNat ≤ 2047 := by decide

theorem witness_S2dLaws :
    (4095 : StepCount).toNat + (4096 : StepCount).toNat ≤ 8191 ∧ (4095 : StepCount).toNat < 4096 := by decide

theorem witness_OneConversionConstant : displacement 1 4095 = ((2 : StepCount).toNat : ℤ) := by decide

theorem witness_DegreesAreTheRealNumbers : |(-8191 : ℤ)| ≤ 8191 ∧ |(8191 : ℤ)| ≤ 8191 := by decide

theorem witness_CommandFrame : (accepting 0).mode = .run ∧ (faultedWith 0).mode = .fault := ⟨rfl, rfl⟩

theorem witness_NoCommandReadsRes : (accepting 0).err = State.reset.err ∧ (accepting 0).res ≠ State.reset.res := by decide

theorem witness_StepKeepsResAResult :
    (accepting 0xC0000FFF).resHoldsResult ∧
    step (accepting 0xC0000FFF) = .next { res := 0xFFFFFFD3, err := .none, edges := [] } :=
  ⟨.inl (by decide), rfl⟩

theorem witness_FaultedRunKeepsTheFirstError :
    Reference.result Config.llmFth.toNat (0xA0000001 : Word).toNat = .ok 45 ∧
    Reference.result Config.llmFth.toNat (0x40160000 : Word).toNat = .error 1 := ⟨rfl, rfl⟩

end Sys2Proof.Tests
end

/-! ## 00_scope.md: the check of a field table (R8) and the bits in no field

The layer of facts the statement needs: the check said bit by bit, the word with a field replaced outside the field,
and what it means that a command of RUN completes with a result. -/

namespace Sys2Proof

/-- Masks meet in no bit exactly when the fields share no bit of the word (00_scope.md R8). -/
theorem FieldDescr.disjoint_iff {d e : FieldDescr} :
    d.disjoint e = true ↔
      ∀ b, b < 16 → ¬ (d.off ≤ b ∧ b < d.off + d.width ∧ e.off ≤ b ∧ b < e.off + e.width) := by
  rw [FieldDescr.disjoint, decide_eq_true_eq, BitVec.eq_of_getLsbD_eq_iff]
  refine forall₂_congr fun b hb => ?_
  rw [BitVec.getLsbD_and, FieldDescr.mask_getLsbD, FieldDescr.mask_getLsbD, ← Bool.decide_and, BitVec.ofNat_eq_ofNat,
    BitVec.getLsbD_zero, decide_eq_false_iff_not]
  simp only [hb, true_and, and_assoc]

theorem FieldDescr.disjoint_symm {d e : FieldDescr} (h : d.disjoint e = true) : e.disjoint d = true := by
  rwa [FieldDescr.disjoint, BitVec.and_comm]

/-- The check of R8 over the field names instead of over the three descriptors. -/
theorem FieldTable.wf_iff {t : FieldTable} :
    t.wf = true ↔
      (∀ f, (t.get f).inside = true) ∧ ∀ f g, f ≠ g → (t.get f).disjoint (t.get g) = true := by
  simp only [FieldTable.wf, Bool.and_eq_true]
  constructor
  · rintro ⟨⟨⟨⟨⟨hsf, hfth⟩, hpm⟩, hsf_fth⟩, hsf_pm⟩, hfth_pm⟩
    refine ⟨fun f => ?_, fun f g hne => ?_⟩
    · cases f <;> assumption
    · exact match f, g, hne with
        | .sf, .fth, _ => hsf_fth
        | .sf, .pm, _ => hsf_pm
        | .fth, .pm, _ => hfth_pm
        | .fth, .sf, _ => FieldDescr.disjoint_symm hsf_fth
        | .pm, .sf, _ => FieldDescr.disjoint_symm hsf_pm
        | .pm, .fth, _ => FieldDescr.disjoint_symm hfth_pm
  · rintro ⟨hin, hdis⟩
    exact ⟨⟨⟨⟨⟨hin .sf, hin .fth⟩, hin .pm⟩, hdis .sf .fth (by decide)⟩, hdis .sf .pm (by decide)⟩,
      hdis .fth .pm (by decide)⟩

/-- The check of R8 bit by bit. -/
theorem FieldTable.wf_iff_bits {t : FieldTable} :
    t.wf = true ↔
      (∀ f, (t.get f).off + (t.get f).width ≤ 16) ∧
      ∀ f g, f ≠ g → ∀ b, b < 16 →
        ¬ ((t.get f).off ≤ b ∧ b < (t.get f).off + (t.get f).width ∧
           (t.get g).off ≤ b ∧ b < (t.get g).off + (t.get g).width) := by
  simp only [FieldTable.wf_iff, FieldDescr.inside, decide_eq_true_eq, FieldDescr.disjoint_iff]

/-- Replacing a field leaves every bit outside it: any set m of bits that meets the field nowhere is kept. -/
theorem FieldDescr.insert_and_of_disjoint {d : FieldDescr} {val : FieldValue} (h : d.fits val = true)
    {m : ConfigWord} (hm : m &&& d.mask = 0) (word : ConfigWord) : d.insert word val &&& m = word &&& m := by
  refine BitVec.eq_of_getLsbD_eq fun b hb => ?_
  rw [BitVec.getLsbD_and, BitVec.getLsbD_and, FieldDescr.insert_getLsbD h word hb]
  split
  case isTrue hfield =>
    have hbit : m.getLsbD b = false := by
      have hand : (m &&& d.mask).getLsbD b = false := by rw [hm, BitVec.ofNat_eq_ofNat, BitVec.getLsbD_zero]
      simpa only [BitVec.getLsbD_and, FieldDescr.mask_getLsbD, hb, hfield, and_self, decide_true, Bool.and_true]
        using hand
    simp only [hbit, Bool.and_false]
  case isFalse => rfl

namespace Machine

/-- A command has a result exactly in RUN and when its rule computes one. -/
theorem State.resultOf_eq_some {s : State} {i : Instr} {r : Word} :
    s.resultOf i = some r ↔ s.mode = .run ∧ resultOfInstr i = .ok r := by
  rw [State.resultOf, exec_eq_complete]
  obtain ⟨herr, hc⟩ | ⟨v, herr, hr, hc⟩ | ⟨c, herr, hr, hc⟩ := complete_cases (resultOfInstr i) s
  · simp [hc, herr, State.mode_eq_run]
  · rw [hc, hr]
    simp [herr, State.mode_eq_run]
  · rw [hc, hr]
    simp [Cause.code_ne_none]

/-- SETF on a named field computes a result exactly when the value fits, and it is the word with the field replaced. -/
theorem setfResult_eq_ok {val : FieldValue} {f : Field} {word : ConfigWord} {r : Word} :
    setfResult val (.named f) word = .ok r ↔
      (Config.fieldTable.get f).fits val = true ∧ ((Config.fieldTable.get f).insert word val).setWidth 32 = r := by
  by_cases h : (Config.fieldTable.get f).fits val = true
  · simp [setfResult_fits h, h]
  · simp [setfResult_too_wide h, h]

/-- 0xE0FC is no field's bit in the table in force (00_scope.md R8). -/
theorem fieldTable_mask_unused (f : Field) : (0xE0FC : ConfigWord) &&& (Config.fieldTable.get f).mask = 0 := by
  cases f <;> decide

/-- A successful SETF keeps the bits in no field (00_scope.md R8). -/
theorem setf_keeps_unused_bits {s : State} {v : FieldValue} {f : Field} {w : ConfigWord} {r : Word}
    (h : s.resultOf (.setf v (.named f) w) = some r) :
    r.setWidth 16 &&& (0xE0FC : ConfigWord) = w &&& (0xE0FC : ConfigWord) := by
  obtain ⟨-, hr⟩ := State.resultOf_eq_some.mp h
  obtain ⟨hfits, rfl⟩ := setfResult_eq_ok.mp hr
  rw [setWidth_result]
  exact FieldDescr.insert_and_of_disjoint hfits (fieldTable_mask_unused f) w

/-- Settles O29: the check is `FieldTable.wf_iff_bits`, the table in force is evaluated, and SETF's preservation is
`setf_keeps_unused_bits`. -/
theorem fieldTableCheck : Obligations.FieldTableCheck :=
  ⟨fun _ => ⟨fun h => if_pos (FieldTable.wf_iff_bits.mpr h), fun h => if_neg (mt FieldTable.wf_iff_bits.mp h)⟩,
    by decide, by decide, fun _ _ _ _ _ h => setf_keeps_unused_bits h⟩

end Machine

end Sys2Proof

/-! ## 10_state.md: STAT's three parts (R22, R24) and the reset values (R30)

The layer of facts the statements need: each part of STAT read off the word, FLT by the code's bits, and an edge with
`rst_n` = 0, on which RES and STAT.ERR no longer depend on the state before. -/

namespace Sys2Proof.Machine

/-- STAT[1:0] is ERR (10_state.md R22). -/
theorem State.stat_err_bits (s : State) : s.stat.extractLsb' 0 2 = s.err.bits :=
  BitVec.extractLsb'_append_eq_right

/-- STAT[2] is FLT (10_state.md R22). -/
theorem State.stat_flt_bit (s : State) : s.stat.getLsbD 2 = s.flt := by
  rw [State.stat, BitVec.getLsbD_append, if_neg (by decide), BitVec.getLsbD_append, if_pos (by decide)]
  simp

/-- STAT[31:3] is hardwired 0 (10_state.md R22). -/
theorem State.stat_upper_bits (s : State) : s.stat.extractLsb' 3 29 = 0 := by
  rw [State.stat, BitVec.extractLsb'_append_eq_of_le (by decide)]
  exact BitVec.extractLsb'_append_eq_left

/-- FLT = 1 exactly when the two bits of ERR are not 0 (10_state.md R24). -/
theorem State.flt_eq_decide_bits (s : State) : s.flt = decide (s.err.bits ≠ 0) := by
  rw [Bool.eq_iff_iff, decide_eq_true_iff, State.flt_eq_true, ne_eq, ne_eq, ErrCode.bits_eq_zero]

/-- An edge with `rst_n` = 0 is a reset, whatever `cmd_valid` and `cmd` are (20_memory.md R41). -/
theorem EdgeInput.action_of_rstN_low {e : EdgeInput} (h : e.rstN = false) : e.action = .reset := by
  simp [EdgeInput.action, h]

/-- After a reset edge RES and STAT.ERR are the reset values, whatever they were before (70_reset_and_hazards.md
R140): of the state before, only the edges to come are left. -/
theorem step_of_reset_edge {s : State} {e : EdgeInput} {rest : List EdgeInput} (hedges : s.edges = e :: rest)
    (hrst : e.rstN = false) : step s = .next { State.reset with edges := rest } := by
  rw [step_of_edges hedges, EdgeInput.action_of_rstN_low hrst]
  rfl

/-- Settles O21: STAT's parts are `State.stat_err_bits`, `State.stat_flt_bit` and `State.stat_upper_bits`; the ports
are driven from the registers by definition. -/
theorem statusRegisterLayout : Obligations.StatusRegisterLayout := by
  refine ⟨fun s => ⟨s.stat_err_bits, ?flt_by_code, s.stat_upper_bits, rfl, rfl, ?err_port, ?flt_bit⟩,
    rfl, rfl, rfl, rfl⟩
  case flt_by_code => rw [State.stat_flt_bit, State.flt_eq_decide_bits]
  case err_port => rw [State.outputs_err, State.stat_flt_bit]
  case flt_bit => rw [State.stat_flt_bit]

/-- Settles O15: the reset values are the model's constants, and the first edge after power-up is one reset edge among
all, `step_of_reset_edge`, which forgets the unspecified values. -/
theorem registersAfterReset : Obligations.RegistersAfterReset :=
  ⟨rfl, rfl, rfl, State.reset.stat_upper_bits, rfl, rfl, fun _ _ hrst => step_of_reset_edge rfl hrst⟩

end Sys2Proof.Machine

/-! ## 20_memory.md: what one edge does (R41, R46)

The layer of facts the statement needs: what a word asks for, by what it decodes to, and one equation of `step` for each
kind of edge beside the reset edge, whose equation is `step_of_reset_edge`. -/

namespace Sys2Proof.Machine

theorem resultOfWord_of_decode_ok {c : Word} {i : Instr} (h : decode c = .ok i) :
    resultOfWord c = resultOfInstr i := by
  rw [resultOfWord, h]

theorem resultOfWord_of_decode_error {c : Word} {d : DecodeError} (h : decode c = .error d) :
    resultOfWord c = .error .illegalCmd := by
  rw [resultOfWord, h]

section Edge

variable {s : State} {c : Word} {rest : List EdgeInput}

/-- An edge that accepts a word is one completion, of what the word asks for (20_memory.md R41, R46). -/
theorem step_of_command_edge (hedges : s.edges = .ofCommand c :: rest) :
    step s = complete (resultOfWord c) { s with edges := rest } :=
  step_of_edges hedges

/-- An edge that accepts a word which decodes runs the command. -/
theorem step_of_decode_ok {i : Instr} (hedges : s.edges = .ofCommand c :: rest) (hdec : decode c = .ok i) :
    step s = exec i { s with edges := rest } := by
  rw [step_of_command_edge hedges, resultOfWord_of_decode_ok hdec, exec_eq_complete]

/-- In RUN an edge that accepts a word which spells no command is the error entry of ILLEGAL_CMD
(60_exceptions.md R123). -/
theorem step_of_decode_error_in_run {d : DecodeError} (hedges : s.edges = .ofCommand c :: rest)
    (hdec : decode c = .error d) (hrun : s.mode = .run) :
    step s = .next { s with err := .illegalCmd, edges := rest } := by
  rw [step_of_command_edge hedges, resultOfWord_of_decode_error hdec,
    complete_error (s := { s with edges := rest }) (State.mode_eq_run.mp hrun)]
  rfl

/-- In FAULT an edge that accepts a word has no effect, whatever the word (60_exceptions.md R124). -/
theorem step_of_command_edge_in_fault (hedges : s.edges = .ofCommand c :: rest) (hfault : s.mode = .fault) :
    step s = .next { s with edges := rest } :=
  (step_of_command_edge hedges).trans
    (complete_in_fault (s := { s with edges := rest }) (State.mode_eq_fault.mp hfault))

/-- An edge with `rst_n` = 1 and `cmd_valid` = 0 only goes by, whatever `cmd` is (20_memory.md R41). -/
theorem step_of_idle_edge (hedges : s.edges = ⟨true, false, c⟩ :: rest) : step s = .next { s with edges := rest } :=
  step_of_edges hedges

end Edge

/-- Settles O11: one equation of `step` for each of the ports' four cases. -/
theorem stepRunsTheDecodedCommand : Obligations.StepRunsTheDecodedCommand := by
  refine ⟨?decodes, ?does_not_decode, ?idle, ?reset⟩
  case decodes => exact fun _ _ _ _ hedges hdec => step_of_decode_ok hedges hdec
  case does_not_decode =>
    exact fun _ _ _ _ hedges hdec =>
      ⟨step_of_decode_error_in_run hedges hdec, step_of_command_edge_in_fault hedges⟩
  case idle => exact fun _ _ _ hedges => step_of_idle_edge hedges
  case reset => exact fun _ _ _ _ hedges => step_of_reset_edge hedges rfl

end Sys2Proof.Machine

/-! ## 30_encoding.md: the opcode map, the operands and the illegal words (R65 to R70, R73, R74)

The layer of facts the statements need: the operand fields as numbers, which words spell a command
(`decode_eq_ok_iff`) and which are refused for their opcode (`decode_eq_reservedOpcode_iff`), the masks of the opcode
map as numbers, and when an edge in RUN is the entry of ILLEGAL_CMD. The proofs of the statements cite these and do not
unfold `decode`. -/

namespace Sys2Proof

section Fields

variable (c : Word)

theorem fselField_bits_toNat : (fselField c).bits.toNat = c.toNat / 2 ^ 16 % 4 := by
  rw [fselField, FieldSel.bits_ofBits, extract_toNat]
  rfl

theorem valField_toNat : (valField c).toNat = c.toNat / 2 ^ 18 % 8 := extract_toNat c 18 3

theorem wordField_toNat : (wordField c).toNat = c.toNat % 2 ^ 16 := by
  rw [wordField, extract_toNat, pow_zero, Nat.div_one]

theorem stepsField_toNat : (stepsField c).toNat = c.toNat % 2 ^ 13 := by
  rw [stepsField, extract_toNat, pow_zero, Nat.div_one]

theorem centerField_toNat : (centerField c).toNat = c.toNat / 2 ^ 12 % 2 ^ 12 := extract_toNat c 12 12

theorem rawField_toNat : (rawField c).toNat = c.toNat % 2 ^ 12 := by
  rw [rawField, extract_toNat, pow_zero, Nat.div_one]

end Fields

/-- OP and the reserved-zero bits from bit lo up to it are one number: the word without its low lo bits
(30_encoding.md R66). -/
theorem opField_and_reserved_zero_iff {c : Word} {n : Nat} (op : BitVec 3) (hn : op.toNat = n) (lo len : Nat)
    (h : lo + len = 29) :
    opField c = op ∧ c.extractLsb' lo len = 0 ↔ c.toNat / 2 ^ lo = n * 2 ^ len := by
  have hdiv : c.toNat / 2 ^ lo / 2 ^ len = c.toNat / 2 ^ 29 := by
    rw [Nat.div_div_eq_div_mul, ← Nat.pow_add, h]
  have hzero : (0 : BitVec len).toNat = 0 := BitVec.toNat_zero
  rw [← BitVec.toNat_inj, ← BitVec.toNat_inj, opField_toNat, extract_toNat, hzero, hn, ← hdiv]
  constructor
  · rintro ⟨hop, hres⟩
    rw [← hop, Nat.div_mul_cancel (Nat.dvd_of_mod_eq_zero hres)]
  · intro heq
    rw [heq]
    exact ⟨Nat.mul_div_cancel _ (Nat.two_pow_pos len), Nat.mul_mod_left _ _⟩

/-- WORD's bits are zero exactly when the word is a multiple of 2^16 (30_encoding.md R62). -/
theorem word_bits_zero_iff {c : Word} : c.extractLsb' 0 16 = 0 ↔ c.toNat % 2 ^ 16 = 0 := by
  rw [← wordField_toNat, ← BitVec.toNat_inj]
  rfl

/-- The word spells the command: its bits outside the operands are the row's match, and its operand fields are the
command's operands (30_encoding.md R62 to R67). -/
def Instr.spelledBy (c : Word) : Instr → Prop
  | .getf fsel word => c.toNat / 2 ^ 18 = 1 * 2 ^ 11 ∧ fselField c = fsel ∧ wordField c = word
  | .setf val fsel word =>
    c.toNat / 2 ^ 21 = 2 * 2 ^ 8 ∧ valField c = val ∧ fselField c = fsel ∧ wordField c = word
  | .mask fsel => (c.toNat / 2 ^ 18 = 3 * 2 ^ 11 ∧ c.toNat % 2 ^ 16 = 0) ∧ fselField c = fsel
  | .llm word => c.toNat / 2 ^ 16 = 4 * 2 ^ 13 ∧ wordField c = word
  | .s2d steps => c.toNat / 2 ^ 13 = 5 * 2 ^ 16 ∧ stepsField c = steps
  | .rel center raw => c.toNat / 2 ^ 24 = 6 * 2 ^ 5 ∧ centerField c = center ∧ rawField c = raw

/-- A word that decodes spells the command it decodes to: every row of the decoder gives its own command
(30_encoding.md R71). -/
theorem spelledBy_of_decode {c : Word} {i : Instr} (h : decode c = .ok i) : i.spelledBy c := by
  unfold decode at h
  split_ifs at h with hgetf hsetf hmask hllm hs2d hrel <;> obtain ⟨hzero, rfl⟩ := rowResult_eq_ok.mp h
  · exact ⟨(opField_and_reserved_zero_iff 1 rfl 18 11 rfl).mp ⟨hgetf, eq_of_beq hzero⟩, rfl, rfl⟩
  · exact ⟨(opField_and_reserved_zero_iff 2 rfl 21 8 rfl).mp ⟨hsetf, eq_of_beq hzero⟩, rfl, rfl, rfl⟩
  · obtain ⟨hhigh, hword⟩ := Bool.and_eq_true_iff.mp hzero
    exact ⟨⟨(opField_and_reserved_zero_iff 3 rfl 18 11 rfl).mp ⟨hmask, eq_of_beq hhigh⟩,
      word_bits_zero_iff.mp (eq_of_beq hword)⟩, rfl⟩
  · exact ⟨(opField_and_reserved_zero_iff 4 rfl 16 13 rfl).mp ⟨hllm, eq_of_beq hzero⟩, rfl⟩
  · exact ⟨(opField_and_reserved_zero_iff 5 rfl 13 16 rfl).mp ⟨hs2d, eq_of_beq hzero⟩, rfl⟩
  · exact ⟨(opField_and_reserved_zero_iff 6 rfl 24 5 rfl).mp ⟨hrel, eq_of_beq hzero⟩, rfl, rfl⟩

/-- A word that spells a command decodes to it: its OP picks the command's row (30_encoding.md R71). -/
theorem decode_of_spelledBy {c : Word} {i : Instr} (h : i.spelledBy c) : decode c = .ok i := by
  cases i with
  | getf fsel word =>
    obtain ⟨hhigh, rfl, rfl⟩ := h
    obtain ⟨hop, hzero⟩ := (opField_and_reserved_zero_iff 1 rfl 18 11 rfl).mpr hhigh
    simp [decode, hop, hzero, rowResult]
  | setf val fsel word =>
    obtain ⟨hhigh, rfl, rfl, rfl⟩ := h
    obtain ⟨hop, hzero⟩ := (opField_and_reserved_zero_iff 2 rfl 21 8 rfl).mpr hhigh
    simp [decode, hop, hzero, rowResult]
  | mask fsel =>
    obtain ⟨⟨hhigh, hword⟩, rfl⟩ := h
    obtain ⟨hop, hzero⟩ := (opField_and_reserved_zero_iff 3 rfl 18 11 rfl).mpr hhigh
    simp [decode, hop, hzero, word_bits_zero_iff.mpr hword, rowResult]
  | llm word =>
    obtain ⟨hhigh, rfl⟩ := h
    obtain ⟨hop, hzero⟩ := (opField_and_reserved_zero_iff 4 rfl 16 13 rfl).mpr hhigh
    simp [decode, hop, hzero, rowResult]
  | s2d steps =>
    obtain ⟨hhigh, rfl⟩ := h
    obtain ⟨hop, hzero⟩ := (opField_and_reserved_zero_iff 5 rfl 13 16 rfl).mpr hhigh
    simp [decode, hop, hzero, rowResult]
  | rel center raw =>
    obtain ⟨hhigh, rfl, rfl⟩ := h
    obtain ⟨hop, hzero⟩ := (opField_and_reserved_zero_iff 6 rfl 24 5 rfl).mpr hhigh
    simp [decode, hop, hzero, rowResult]

theorem decode_eq_ok_iff {c : Word} {i : Instr} : decode c = .ok i ↔ i.spelledBy c :=
  ⟨spelledBy_of_decode, decode_of_spelledBy⟩

/-- No row of the decoder refuses a word for its opcode. -/
theorem rowResult_ne_reservedOpcode {zero : Bool} {i : Instr} {op : BitVec 3} :
    rowResult zero i ≠ .error (.reservedOpcode op) := by
  cases zero <;> simp [rowResult]

/-- The words refused for their opcode are those whose OP is 000 or 111 (30_encoding.md R68). -/
theorem decode_eq_reservedOpcode_iff {c : Word} {op : BitVec 3} :
    decode c = .error (.reservedOpcode op) ↔ opField c = op ∧ (op = 0 ∨ op = 7) := by
  constructor
  · intro h
    unfold decode at h
    split_ifs at h with h1 h2 h3 h4 h5 h6
    case neg =>
      obtain rfl : opField c = op := by simpa using h
      refine ⟨rfl, ?_⟩
      generalize opField c = op at h1 h2 h3 h4 h5 h6 ⊢
      revert op
      decide
    all_goals exact absurd h rowResult_ne_reservedOpcode
  · rintro ⟨hop, rfl | rfl⟩ <;> simp [decode, hop]

/-- The reserved selector is the code 3 (30_encoding.md R69). -/
theorem FieldSel.bits_toNat_eq_three {f : FieldSel} : f.bits.toNat = 3 ↔ f = .reserved := by
  rcases f with (_ | _ | _) | _ <;> decide

theorem fselField_eq_reserved {c : Word} (h : c.toNat / 2 ^ 16 % 4 = 3) : fselField c = .reserved :=
  FieldSel.bits_toNat_eq_three.mp ((fselField_bits_toNat c).trans h)

/-- Settles O5: a word that decodes spells its command, so each operand is a field of the word, and the fields'
numbers are `wordField_toNat` and its like. -/
theorem operandsAreTheirBitRanges : Obligations.OperandsAreTheirBitRanges := by
  refine fun c => ⟨?getf, ?setf, ?mask, ?llm, ?s2d, ?rel⟩
  case getf =>
    intro f w h
    obtain ⟨-, rfl, rfl⟩ := spelledBy_of_decode h
    exact ⟨wordField_toNat c, fselField_bits_toNat c⟩
  case setf =>
    intro v f w h
    obtain ⟨-, rfl, rfl, rfl⟩ := spelledBy_of_decode h
    exact ⟨wordField_toNat c, fselField_bits_toNat c, valField_toNat c⟩
  case mask =>
    intro f h
    obtain ⟨-, rfl⟩ := spelledBy_of_decode h
    exact fselField_bits_toNat c
  case llm =>
    intro w h
    obtain ⟨-, rfl⟩ := spelledBy_of_decode h
    exact wordField_toNat c
  case s2d =>
    intro n h
    obtain ⟨-, rfl⟩ := spelledBy_of_decode h
    exact stepsField_toNat c
  case rel =>
    intro k r h
    obtain ⟨-, rfl, rfl⟩ := spelledBy_of_decode h
    exact ⟨centerField_toNat c, rawField_toNat c⟩

/-- A mask of all the bits from lo on fixes the number above the low lo bits (30_encoding.md R66). -/
theorem and_high_mask_eq_iff {c m v : Word} (lo n : Nat) (hm : m = BitVec.allOnes 32 >>> lo <<< lo)
    (hv : v.toNat = n * 2 ^ lo) : c &&& m = v ↔ c.toNat / 2 ^ lo = n := by
  have hnum : (BitVec.ofNat 32 (c.toNat / 2 ^ lo * 2 ^ lo)).toNat = c.toNat / 2 ^ lo * 2 ^ lo :=
    Nat.mod_eq_of_lt (Nat.lt_of_le_of_lt (Nat.div_mul_le_self _ _) c.isLt)
  have hand : c &&& m = BitVec.ofNat 32 (c.toNat / 2 ^ lo * 2 ^ lo) :=
    eq_of_beq (Laws.EncodesInItsRow.selects_of_high (r := ⟨none, _, m⟩) lo hm hnum.symm)
  rw [hand, ← BitVec.toNat_inj, hnum, hv]
  exact Nat.mul_left_inj (Nat.two_pow_pos lo).ne'

/-- The mask of a reserved row fixes OP (30_encoding.md R66). -/
theorem and_op_mask_eq_iff {c v : Word} (op : BitVec 3) (hv : v.toNat = op.toNat * 2 ^ 29) :
    c &&& 0xE0000000 = v ↔ opField c = op :=
  (and_high_mask_eq_iff 29 op.toNat (by rfl) hv).trans (by rw [← opField_toNat, BitVec.toNat_inj])

/-- The low 16 bits are zero exactly when the word is a multiple of 2^16. -/
theorem and_low_mask_eq_zero_iff {c : Word} : c &&& 0x0000FFFF = 0 ↔ c.toNat % 2 ^ 16 = 0 := by
  rw [← BitVec.toNat_inj, BitVec.toNat_and]
  exact Eq.congr_left (Nat.and_two_pow_sub_one_eq_mod c.toNat 16)

/-- A mask in two parts fixes the bits of each part. -/
theorem and_or_eq_iff {w : Nat} {c a b v : BitVec w} (hv : v &&& (a ||| b) = v) :
    c &&& (a ||| b) = v ↔ c &&& a = v &&& a ∧ c &&& b = v &&& b := by
  constructor
  · rintro rfl
    have ha : (a ||| b) &&& a = a := by ext i hi; simp +contextual
    have hb : (a ||| b) &&& b = b := by ext i hi; simp +contextual
    exact ⟨by rw [BitVec.and_assoc, ha], by rw [BitVec.and_assoc, hb]⟩
  · rintro ⟨ha, hb⟩
    rw [BitVec.and_or_distrib_left, ha, hb, ← BitVec.and_or_distrib_left, hv]

/-- MASK's row fixes the bits above FSEL and the bits of WORD (30_encoding.md R66). -/
theorem and_mask_row_eq_iff {c : Word} :
    c &&& 0xFFFCFFFF = 0x60000000 ↔ c.toNat / 2 ^ 18 = 3 * 2 ^ 11 ∧ c.toNat % 2 ^ 16 = 0 := by
  rw [← and_high_mask_eq_iff (m := 0xFFFC0000) (v := 0x60000000) 18 (3 * 2 ^ 11) rfl rfl,
    ← and_low_mask_eq_zero_iff]
  exact and_or_eq_iff (a := 0xFFFC0000) (b := 0x0000FFFF) rfl

/-- Settles O4: a row's mask and match say of the word's number what spelling the row's command says
(`decode_eq_ok_iff`), and the two reserved rows fix OP (`decode_eq_reservedOpcode_iff`). -/
theorem opcodeMapSelectsDecodedMnemonic : Obligations.OpcodeMapSelectsDecodedMnemonic := by
  intro c
  simp only [decode_eq_ok_iff, Instr.spelledBy, decode_eq_reservedOpcode_iff]
  refine ⟨?getf, ?setf, ?mask, ?llm, ?s2d, ?rel, ?op0, ?op7⟩
  case getf => exact (and_high_mask_eq_iff 18 (1 * 2 ^ 11) (by rfl) (by rfl)).trans (by simp)
  case setf => exact (and_high_mask_eq_iff 21 (2 * 2 ^ 8) (by rfl) (by rfl)).trans (by simp)
  case mask => exact and_mask_row_eq_iff.trans (by simp)
  case llm => exact (and_high_mask_eq_iff 16 (4 * 2 ^ 13) (by rfl) (by rfl)).trans (by simp)
  case s2d => exact (and_high_mask_eq_iff 13 (5 * 2 ^ 16) (by rfl) (by rfl)).trans (by simp)
  case rel => exact (and_high_mask_eq_iff 24 (6 * 2 ^ 5) (by rfl) (by rfl)).trans (by simp)
  case op0 => exact (and_op_mask_eq_iff 0 (by rfl)).trans (by simp)
  case op7 => exact (and_op_mask_eq_iff 7 (by rfl)).trans (by simp)

/-- What a line assembles to depends on its expansion alone (30_encoding.md R73). -/
theorem AsmLine.assemble_congr {l l' : AsmLine} (h : l.expand = l'.expand) : l.assemble = l'.assemble := by
  rw [AsmLine.assemble, AsmLine.assemble, h]

/-- Settles O10: each pseudo-instruction has the expansion of its command line. -/
theorem pseudoInstructionsExpand : Obligations.PseudoInstructionsExpand :=
  ⟨fun _ _ => AsmLine.assemble_congr rfl, fun _ => AsmLine.assemble_congr rfl, fun _ => AsmLine.assemble_congr rfl⟩

/-- Settles O1: closed facts, each evaluated. -/
theorem encodingExamples : Obligations.EncodingExamples := by
  unfold Obligations.EncodingExamples
  decide

namespace Machine

/-- ILLEGAL_CMD is the decoder's error: no command's rule raises it (60_exceptions.md R120). -/
theorem resultOfInstr_ne_illegalCmd (i : Instr) : resultOfInstr i ≠ .error .illegalCmd := by
  cases i with
  | getf fsel word => cases fsel <;> simp [resultOfInstr, getfResult_named, getfResult_reserved]
  | setf val fsel word =>
    cases fsel with
    | named f =>
      by_cases h : (Config.fieldTable.get f).fits val = true
      · simp [resultOfInstr, setfResult_fits h]
      · simp [resultOfInstr, setfResult_too_wide h]
    | reserved => simp [resultOfInstr, setfResult_reserved]
  | mask fsel => cases fsel <;> simp [resultOfInstr, maskResult_named, maskResult_reserved]
  | llm word => simp [resultOfInstr, llmResult]
  | s2d steps => simp [resultOfInstr, s2dResult]
  | rel center raw => simp [resultOfInstr, relResult]

/-- A word asks for ILLEGAL_CMD exactly when it spells no command (30_encoding.md R67, R68). -/
theorem resultOfWord_eq_illegalCmd_iff {c : Word} :
    resultOfWord c = .error .illegalCmd ↔ ∀ i, decode c ≠ .ok i := by
  cases hdec : decode c with
  | ok i => simp [resultOfWord_of_decode_ok hdec, resultOfInstr_ne_illegalCmd]
  | error d => simp [resultOfWord_of_decode_error hdec]

/-- Each error enters its own code. -/
theorem Cause.code_eq_illegalCmd_iff {c : Cause} : c.code = .illegalCmd ↔ c = .illegalCmd := by
  cases c <;> decide

/-- In RUN a completion is the entry of ILLEGAL_CMD exactly when that error is raised (60_exceptions.md R123). -/
theorem complete_eq_illegalCmd_entry_iff {r : Except Cause Word} {s : State} (h : s.err = .none) :
    complete r s = .next { s with err := .illegalCmd } ↔ r = .error .illegalCmd := by
  cases r with
  | ok v => simp [complete_ok h, State.writeRes, h]
  | error c => simp [complete_error h, State.errorEntry, Cause.code_eq_illegalCmd_iff]

/-- The edge that accepts a word in RUN is the entry of ILLEGAL_CMD exactly when the word spells no command. -/
theorem step_eq_illegalCmd_entry_iff {s : State} {c : Word} {rest : List EdgeInput} (h : s.accepts c rest) :
    step s = .next { s with err := .illegalCmd, edges := rest } ↔ ∀ i, decode c ≠ .ok i := by
  obtain ⟨hrun, hedges⟩ := h
  rw [step_of_command_edge hedges, ← resultOfWord_eq_illegalCmd_iff]
  exact complete_eq_illegalCmd_entry_iff (s := { s with edges := rest }) (State.mode_eq_run.mp hrun)

/-- Settles O7: the edge enters ILLEGAL_CMD exactly when no command is decoded, `step_eq_illegalCmd_entry_iff`. -/
theorem everyWordDecodesOrIsIllegal : Obligations.EveryWordDecodesOrIsIllegal := by
  intro s c rest h
  rw [ne_eq, step_eq_illegalCmd_entry_iff h]
  exact not_forall_not.symm

/-- A word with a reserved opcode or a nonzero reserved-zero bit spells no command (30_encoding.md R67, R68). -/
theorem decode_ne_ok_of_reserved {c : Word}
    (h : c.toNat / 2 ^ 29 = 0 ∨ c.toNat / 2 ^ 29 = 7 ∨ Reference.reservedBitSet c.toNat) (i : Instr) :
    decode c ≠ .ok i := by
  rw [ne_eq, decode_eq_ok_iff]
  unfold Reference.reservedBitSet at h
  cases i <;> simp only [Instr.spelledBy] <;> omega

/-- The edge that accepts such a word in RUN is the entry of ILLEGAL_CMD (30_encoding.md R67, R68). -/
theorem step_of_reserved {s : State} {c : Word} {rest : List EdgeInput} (haccepts : s.accepts c rest)
    (h : c.toNat / 2 ^ 29 = 0 ∨ c.toNat / 2 ^ 29 = 7 ∨ Reference.reservedBitSet c.toNat) :
    step s = .next { s with err := .illegalCmd, edges := rest } :=
  (step_eq_illegalCmd_entry_iff haccepts).mpr (decode_ne_ok_of_reserved h)

/-- Settles O6: by `step_of_reserved`, and OP of the all-zero word is 000. -/
theorem illegalWordsRaiseIllegalCommand : Obligations.IllegalWordsRaiseIllegalCommand :=
  ⟨fun _ _ _ haccepts h => step_of_reserved haccepts h, fun _ _ haccepts => step_of_reserved haccepts (.inl rfl)⟩

/-- In RUN a command whose rule raises an error only enters that error (60_exceptions.md R123). -/
theorem exec_of_error_in_run {i : Instr} {c : Cause} {s : State} (hrun : s.mode = .run)
    (hres : resultOfInstr i = .error c) : exec i s = .next (s.errorEntry c) := by
  rw [exec_eq_complete, hres, complete_error (State.mode_eq_run.mp hrun)]

/-- Settles O8: the three rules raise ILLEGAL_FIELD for the reserved selector, a word with FSEL = 3 and its row's other
bits spells its command, and FSEL is among the bits that LLM's row fixes to zero. -/
theorem reservedSelectorRaisesIllegalField : Obligations.ReservedSelectorRaisesIllegalField := by
  refine ⟨?executes, ?decodes, ?llm⟩
  case executes =>
    exact fun s w v hrun => ⟨exec_of_error_in_run (i := .getf .reserved w) hrun (getfResult_reserved w),
      exec_of_error_in_run (i := .setf v .reserved w) hrun (setfResult_reserved v w),
      exec_of_error_in_run (i := .mask .reserved) hrun maskResult_reserved⟩
  case decodes =>
    intro c hsel
    have hfsel := fselField_eq_reserved hsel
    exact ⟨fun hhigh => ⟨_, decode_of_spelledBy ⟨hhigh, hfsel, rfl⟩⟩,
      fun hhigh => ⟨_, _, decode_of_spelledBy ⟨hhigh, rfl, hfsel, rfl⟩⟩,
      fun hhigh hword => decode_of_spelledBy ⟨⟨hhigh, hword⟩, hfsel⟩⟩
  case llm =>
    intro c w hdec
    obtain ⟨hhigh, -⟩ := spelledBy_of_decode hdec
    omega

end Machine

end Sys2Proof

/-! ## 40_codec.md: the field operations and the four commands that use them (R82 to R87)

The layer of facts the statements need: the laws of `extract` and `insert` for any descriptor, both operations as
numbers, what each command computes by its result lemma, and that a command of RUN whose rule computes a value only
writes it. The proofs of the statements cite these and unfold neither `exec` nor `step`. -/

namespace Sys2Proof

section FieldOperations

variable {d e : FieldDescr} {val val' : FieldValue}

/-- No bit of the word outside the mask affects the field's value (40_codec.md R82). -/
theorem FieldDescr.extract_and_mask (d : FieldDescr) (word : ConfigWord) :
    d.extract (word &&& d.mask) = d.extract word := by
  refine BitVec.eq_of_getLsbD_eq fun b _ => ?_
  rw [FieldDescr.extract_getLsbD, FieldDescr.extract_getLsbD, BitVec.getLsbD_and, FieldDescr.mask_getLsbD]
  by_cases hin : d.off + b < 16
  · simp [hin]
  · simp [BitVec.getLsbD_of_ge word (d.off + b) (by omega)]

theorem FieldDescr.keep_and_mask (d : FieldDescr) : d.keep &&& d.mask = 0 := by
  rw [FieldDescr.keep, BitVec.and_comm, BitVec.and_not_self]

/-- Replacing a field passes the bits outside its mask through (40_codec.md R83). -/
theorem FieldDescr.insert_and_keep (h : d.fits val = true) (word : ConfigWord) :
    d.insert word val &&& d.keep = word &&& d.keep :=
  FieldDescr.insert_and_of_disjoint h d.keep_and_mask word

/-- The last write wins: what an earlier one put in the field is cut away (40_codec.md R86). -/
theorem FieldDescr.insert_insert_same (h : d.fits val = true) (word : ConfigWord) :
    d.insert (d.insert word val) val' = d.insert word val' := by
  rw [FieldDescr.insert, FieldDescr.insert_and_keep h, FieldDescr.insert]

/-- Read after write (40_codec.md R86). -/
theorem FieldDescr.extract_insert_same (hin : d.off + d.width ≤ 16) (h : d.fits val = true) (word : ConfigWord) :
    d.extract (d.insert word val) = val.setWidth 16 := by
  refine BitVec.eq_of_getLsbD_eq fun b hb => ?_
  rw [FieldDescr.extract_getLsbD, BitVec.getLsbD_setWidth]
  by_cases hw : b < d.width
  · rw [FieldDescr.insert_getLsbD h word (by omega), if_pos (by omega), Nat.add_sub_cancel_left]
    simp [hw, hb]
  · simp [hw, FieldDescr.getLsbD_of_fits h (Nat.not_lt.mp hw)]

/-- Replacing a field leaves the value of every field that shares no bit with it (40_codec.md R86). -/
theorem FieldDescr.extract_insert_of_disjoint (hdis : e.disjoint d = true) (h : d.fits val = true)
    (word : ConfigWord) : e.extract (d.insert word val) = e.extract word := by
  rw [← FieldDescr.extract_and_mask, FieldDescr.insert_and_of_disjoint h (of_decide_eq_true hdis),
    FieldDescr.extract_and_mask]

/-- What is read from a field fits it, also when cut to the bits of VAL. -/
theorem FieldDescr.fits_extract (hin : d.off + d.width ≤ 16) (word : ConfigWord) :
    d.fits ((d.extract word).setWidth 3) = true := by
  rw [FieldDescr.fits, decide_eq_true_iff, BitVec.toNat_setWidth, Machine.extract_toNat_eq d word hin]
  exact Nat.lt_of_le_of_lt (Nat.mod_le _ _) (Nat.mod_lt _ (Nat.two_pow_pos _))

/-- Writing to a field what it holds changes nothing (40_codec.md R86). -/
theorem FieldDescr.insert_extract_self (hw : d.width ≤ 3) (hin : d.off + d.width ≤ 16) (word : ConfigWord) :
    d.insert word ((d.extract word).setWidth 3) = word := by
  refine BitVec.eq_of_getLsbD_eq fun b hb => ?_
  rw [FieldDescr.insert_getLsbD (FieldDescr.fits_extract hin word) word hb]
  split
  case isTrue hfield =>
    rw [BitVec.getLsbD_setWidth, FieldDescr.extract_getLsbD, Nat.add_sub_cancel' hfield.1]
    simp [show b - d.off < d.width by omega, show b - d.off < 3 by omega]
  case isFalse => rfl

/-- Writes to two fields that share no bit commute (40_codec.md R86). -/
theorem FieldDescr.insert_comm (hdis : d.disjoint e = true) (h : d.fits val = true) (h' : e.fits val' = true)
    (word : ConfigWord) : e.insert (d.insert word val) val' = d.insert (e.insert word val') val := by
  refine BitVec.eq_of_getLsbD_eq fun b hb => ?_
  simp only [FieldDescr.insert_getLsbD h _ hb, FieldDescr.insert_getLsbD h' _ hb]
  have hshared := FieldDescr.disjoint_iff.mp hdis b hb
  by_cases hd : d.off ≤ b ∧ b < d.off + d.width
  · rw [if_neg (by omega), if_pos hd, if_pos hd]
  · rw [if_neg hd, if_neg hd]

end FieldOperations

/-- The bits of the number with a field replaced: the counterpart of `FieldDescr.insert_getLsbD`. -/
theorem Reference.insert_testBit {width val : Nat} (h : val < 2 ^ width) (off word b : Nat) :
    (Reference.insert off width word val).testBit b =
      if off ≤ b ∧ b < off + width then val.testBit (b - off) else word.testBit b := by
  have hlow : word % 2 ^ off < 2 ^ off := Nat.mod_lt _ (Nat.two_pow_pos off)
  have hmid : 2 ^ off * val + word % 2 ^ off < 2 ^ (off + width) := by
    calc 2 ^ off * val + word % 2 ^ off < 2 ^ off * (val + 1) := by rw [Nat.mul_succ]; omega
      _ ≤ 2 ^ off * 2 ^ width := Nat.mul_le_mul_left _ h
      _ = 2 ^ (off + width) := (Nat.pow_add 2 off width).symm
  have hparts : Reference.insert off width word val =
      2 ^ (off + width) * (word / 2 ^ (off + width)) + (2 ^ off * val + word % 2 ^ off) := by
    rw [Reference.insert, Nat.mul_comm _ (2 ^ (off + width)), Nat.mul_comm val, Nat.add_assoc]
  rw [hparts, Nat.testBit_two_pow_mul_add _ hmid, Nat.testBit_two_pow_mul_add _ hlow]
  by_cases hhigh : b < off + width
  · by_cases hbelow : b < off
    · simp [hhigh, hbelow, Nat.not_le.mpr hbelow]
    · simp [hhigh, hbelow, Nat.not_lt.mp hbelow]
  · simp [hhigh, Nat.testBit_div_two_pow, Nat.sub_add_cancel (Nat.not_lt.mp hhigh)]

/-- The word with a field replaced, as a number (40_codec.md R83). -/
theorem FieldDescr.insert_toNat {d : FieldDescr} {val : FieldValue} (hin : d.off + d.width ≤ 16)
    (h : d.fits val = true) (word : ConfigWord) :
    (d.insert word val).toNat = Reference.insert d.off d.width word.toNat val.toNat := by
  refine Nat.eq_of_testBit_eq fun b => ?_
  rw [Reference.insert_testBit (of_decide_eq_true h)]
  by_cases hb : b < 16
  · exact FieldDescr.insert_getLsbD h word hb
  · rw [if_neg (by omega)]
    exact (BitVec.getLsbD_of_ge _ b (by omega)).trans (BitVec.getLsbD_of_ge word b (by omega)).symm

namespace Machine

/-! ### What is true of the table in force -/

/-- No two fields of the table in force share a bit (00_scope.md R8). -/
theorem fieldTable_disjoint {f g : Field} (h : f ≠ g) :
    (Config.fieldTable.get f).disjoint (Config.fieldTable.get g) = true :=
  (FieldTable.wf_iff.mp (show Config.fieldTable.wf = true by decide)).2 f g h

/-- Every field's value can be carried in VAL (30_encoding.md R62). -/
theorem fieldTable_width_le (f : Field) : (Config.fieldTable.get f).width ≤ 3 := by
  cases f <;> decide

theorem fieldTable_mask_toNat (f : Field) :
    (Config.fieldTable.get f).mask.toNat =
      (2 ^ (Config.fieldTable.get f).width - 1) * 2 ^ (Config.fieldTable.get f).off := by
  cases f <;> decide

/-- Only SF and PM are too narrow for some VAL, and then VAL is 4 to 7 (40_codec.md R83). -/
theorem narrow_field_of_too_wide {f : Field} {v : FieldValue} (h : 2 ^ (Config.fieldTable.get f).width ≤ v.toNat) :
    (f = .sf ∨ f = .pm) ∧ 4 ≤ v.toNat := by
  cases f with
  | sf => exact ⟨.inl rfl, h⟩
  | fth => exact absurd v.isLt (Nat.not_lt.mpr h)
  | pm => exact ⟨.inr rfl, h⟩

theorem llmSf_fits : (Config.fieldTable.get .sf).fits Config.llmSf = true := by decide

/-! ### Results in RUN -/

/-- In RUN a command whose rule computes a value only writes it to RES (20_memory.md R46). -/
theorem exec_of_ok_in_run {i : Instr} {v : Word} {s : State} (hrun : s.mode = .run) (hres : resultOfInstr i = .ok v) :
    exec i s = .next { s with res := v } := by
  rw [exec_eq_complete, hres, complete_ok (State.mode_eq_run.mp hrun)]
  rfl

theorem exec_setf_in_run {s : State} {v : FieldValue} {f : Field} (hrun : s.mode = .run)
    (h : (Config.fieldTable.get f).fits v = true) (w : ConfigWord) :
    exec (.setf v (.named f) w) s =
      .next { s with res := ((Config.fieldTable.get f).insert w v).setWidth 32 } :=
  exec_of_ok_in_run hrun (setfResult_fits h w)

theorem exec_llm_in_run {s : State} (hrun : s.mode = .run) (w : ConfigWord) :
    exec (.llm w) s =
      .next { s with res := (Config.fieldTable.lowLatency Config.llmSf Config.llmFth w).setWidth 32 } :=
  exec_of_ok_in_run hrun rfl

/-- A codec result in RES is the number of its 16-bit word (10_state.md R21). -/
theorem setWidth_result_eq_ofNat {w : ConfigWord} {n : Nat} (h : w.toNat = n) :
    (w.setWidth 32 : Word) = BitVec.ofNat 32 n := by
  rw [← h, BitVec.ofNat_toNat]

section ResultOf

variable {s : State} {f : Field}

theorem resultOf_getf (hrun : s.mode = .run) (w : ConfigWord) :
    s.resultOf (.getf (.named f) w) = some (((Config.fieldTable.get f).extract w).setWidth 32) :=
  State.resultOf_eq_some.mpr ⟨hrun, getfResult_named f w⟩

theorem resultOf_setf {v : FieldValue} (hrun : s.mode = .run) (h : (Config.fieldTable.get f).fits v = true)
    (w : ConfigWord) :
    s.resultOf (.setf v (.named f) w) = some (((Config.fieldTable.get f).insert w v).setWidth 32) :=
  State.resultOf_eq_some.mpr ⟨hrun, setfResult_fits h w⟩

/-- SETF has a result only for a value that fits, and it is the word with the field replaced (40_codec.md R83). -/
theorem setf_result {v : FieldValue} {w : ConfigWord} {r : Word} (h : s.resultOf (.setf v (.named f) w) = some r) :
    (Config.fieldTable.get f).fits v = true ∧ ((Config.fieldTable.get f).insert w v).setWidth 32 = r :=
  setfResult_eq_ok.mp (State.resultOf_eq_some.mp h).2

theorem resultOf_llm (hrun : s.mode = .run) (w : ConfigWord) :
    s.resultOf (.llm w) =
      some ((Config.fieldTable.lowLatency Config.llmSf Config.llmFth w).setWidth 32) :=
  State.resultOf_eq_some.mpr ⟨hrun, rfl⟩

end ResultOf

/-! ### The statements -/

/-- Settles O30: the field's value as a number is `extract_toNat_eq`. -/
theorem getfReadsTheField : Obligations.GetfReadsTheField := by
  refine ⟨?completes, ?reserved, ?illegal, ?encoding⟩
  case completes =>
    intro s f w hrun
    rw [← setWidth_result_eq_ofNat (extract_toNat_eq _ w (fieldTable_inside f))]
    exact exec_of_ok_in_run hrun (getfResult_named f w)
  case reserved => exact fun s w hrun => exec_of_error_in_run (i := .getf .reserved w) hrun (getfResult_reserved w)
  case illegal => exact fun s c rest hacc hop hres => step_of_reserved hacc (.inr (.inr (.inl ⟨hop, hres⟩)))
  case encoding => exact fun f w => by simp [encode, formatF_toNat]

/-- Settles O31: the word with the field replaced, as a number, is `FieldDescr.insert_toNat`. -/
theorem setfReplacesTheField : Obligations.SetfReplacesTheField := by
  refine ⟨?completes, ?range, ?reserved, ?illegal, ?encoding⟩
  case completes =>
    intro s v f w hrun hv
    have hfits : (Config.fieldTable.get f).fits v = true := decide_eq_true hv
    rw [← setWidth_result_eq_ofNat (FieldDescr.insert_toNat (fieldTable_inside f) hfits w)]
    exact exec_setf_in_run hrun hfits w
  case range =>
    intro s v f w hrun hv
    have hwide : ¬ (Config.fieldTable.get f).fits v = true := by
      simpa only [FieldDescr.fits, decide_eq_true_eq, Nat.not_lt] using hv
    exact ⟨exec_of_error_in_run (i := .setf v (.named f) w) hrun (setfResult_too_wide hwide w), narrow_field_of_too_wide hv⟩
  case reserved => exact fun s v w hrun => exec_of_error_in_run (i := .setf v .reserved w) hrun (setfResult_reserved v w)
  case illegal => exact fun s c rest hacc hop hres => step_of_reserved hacc (.inr (.inr (.inr (.inl ⟨hop, hres⟩))))
  case encoding => exact fun v f w => by simp [encode, formatF_toNat]

/-- MASK's result bit by bit (40_codec.md R84). -/
theorem fieldTable_mask_result_getLsbD (f : Field) (b : Nat) :
    ((Config.fieldTable.get f).mask.setWidth 32 : Word).getLsbD b =
      decide ((Config.fieldTable.get f).off ≤ b ∧
        b < (Config.fieldTable.get f).off + (Config.fieldTable.get f).width) := by
  have hin := fieldTable_inside f
  rw [BitVec.getLsbD_setWidth, FieldDescr.mask_getLsbD, ← Bool.decide_and, decide_eq_decide]
  omega

/-- Settles O32: the mask bit by bit is `fieldTable_mask_result_getLsbD`, as a number `fieldTable_mask_toNat`. -/
theorem maskGivesTheFieldsBits : Obligations.MaskGivesTheFieldsBits := by
  refine ⟨?completes, ?reserved, ?illegal, ?encoding⟩
  case completes =>
    intro s f hrun
    refine ⟨_, exec_of_ok_in_run hrun (maskResult_named f), rfl, rfl, fieldTable_mask_result_getLsbD f, ?_⟩
    rw [BitVec.toNat_setWidth_of_le (by decide), fieldTable_mask_toNat]
  case reserved => exact fun s hrun => exec_of_error_in_run (i := .mask .reserved) hrun maskResult_reserved
  case illegal =>
    exact fun s c rest hacc hop hres => step_of_reserved hacc (.inr (.inr (.inr (.inr (.inl ⟨hop, hres⟩)))))
  case encoding => exact fun f => by simp [encode, formatF_toNat]

/-- The low-latency word as a number: two replacements (40_codec.md R85). -/
theorem lowLatency_toNat (w : ConfigWord) :
    (Config.fieldTable.lowLatency Config.llmSf Config.llmFth w).toNat =
      Reference.insert 10 3 (Reference.insert 8 2 w.toNat Config.llmSf.toNat) Config.llmFth.toNat := by
  have hsf := FieldDescr.insert_toNat (fieldTable_inside .sf) llmSf_fits w
  have hfth := FieldDescr.insert_toNat (fieldTable_inside .fth) llmFth_fits
    ((Config.fieldTable.get .sf).insert w Config.llmSf)
  rw [hsf] at hfth
  exact hfth

/-- The low-latency word by masks: SF becomes 0, so only FTH's bits are put in (40_codec.md R85). -/
theorem lowLatency_eq_or (w : ConfigWord) :
    Config.fieldTable.lowLatency Config.llmSf Config.llmFth w =
      (w &&& (0xE0FF : ConfigWord)) ||| (Config.llmFth.setWidth 16 <<< 10) := by
  have hsf : Config.fieldTable.sf.insert w Config.llmSf = w &&& Config.fieldTable.sf.keep :=
    BitVec.or_zero
  rw [FieldTable.lowLatency, hsf, FieldDescr.insert, BitVec.and_assoc]
  rfl

/-- SETF of LLM_SF in SF and then of LLM_FTH in FTH, each in RUN, ends where LLM ends (40_codec.md R85). -/
theorem llm_eq_setf_setf {s t t' : State} {w : ConfigWord} (hrun : s.mode = .run)
    (hsf : exec (.setf Config.llmSf (.named .sf) w) s = .next t)
    (hfth : exec (.setf Config.llmFth (.named .fth) (t.res.setWidth 16)) t = .next t') :
    exec (.llm w) s = .next t' := by
  rw [exec_setf_in_run hrun llmSf_fits] at hsf
  have ht := Host.Outcome.next.inj hsf
  have hrun_t : t.mode = .run := by
    rw [← ht]
    exact hrun
  rw [exec_setf_in_run hrun_t llmFth_fits, ← ht, setWidth_result] at hfth
  exact (exec_llm_in_run hrun w).trans hfth

/-- Settles O33: LLM writes the low-latency word, which is `lowLatency_toNat` as a number and `lowLatency_eq_or` by
masks; its form by two SETFs is `llm_eq_setf_setf`. -/
theorem llmWritesTheLowLatencyWord : Obligations.LlmWritesTheLowLatencyWord := by
  refine ⟨fun s w hrun => ⟨?number, ?masks, fun _ _ => llm_eq_setf_setf hrun⟩, ?illegal, ?encoding⟩
  case number =>
    rw [← setWidth_result_eq_ofNat (lowLatency_toNat w)]
    exact exec_llm_in_run hrun w
  case masks =>
    rw [← lowLatency_eq_or]
    exact exec_llm_in_run hrun w
  case illegal =>
    exact fun s c rest hacc hop hres =>
      step_of_reserved hacc (.inr (.inr (.inr (.inr (.inr (.inl ⟨hop, hres⟩))))))
  case encoding => exact fun w => by simp [encode, formatF_toNat, FieldSel.bits]

/-- Settles O34: each result is the operation's own word (`setf_result`, `resultOf_setf`, `resultOf_getf`), and each law
is the operations' law for the descriptors of the table in force. -/
theorem codecLaws : Obligations.CodecLaws := by
  refine fun s s' f g v v1 v2 u w r r' x hrun hrun' => ⟨?afterWrite, ?writeBack, ?lastWins, ?commute⟩
  case afterWrite =>
    intro h
    obtain ⟨hfits, rfl⟩ := setf_result h
    rw [setWidth_result, resultOf_setf hrun' hfits, resultOf_getf hrun', resultOf_getf hrun', resultOf_getf hrun',
      FieldDescr.insert_insert_same hfits, FieldDescr.extract_insert_same (fieldTable_inside f) hfits,
      BitVec.setWidth_setWidth (by decide)]
    exact ⟨rfl, rfl, fun hne => by rw [FieldDescr.extract_insert_of_disjoint (fieldTable_disjoint hne) hfits],
      FieldDescr.insert_and_keep hfits w⟩
  case writeBack =>
    intro h
    rw [resultOf_getf hrun] at h
    obtain rfl := Option.some.inj h
    have hw := fieldTable_width_le f
    have hin := fieldTable_inside f
    rw [BitVec.setWidth_setWidth_of_le _ (by decide), resultOf_setf hrun' (FieldDescr.fits_extract hin w),
      FieldDescr.insert_extract_self hw hin]
  case lastWins =>
    intro h1 h2
    obtain ⟨hfits1, rfl⟩ := setf_result h1
    obtain ⟨hfits2, rfl⟩ := setf_result h2
    rw [setWidth_result, resultOf_setf hrun' hfits2, FieldDescr.insert_insert_same hfits1]
  case commute =>
    intro hne hf hg
    obtain ⟨hfitsf, rfl⟩ := setf_result hf
    obtain ⟨hfitsg, rfl⟩ := setf_result hg
    rw [setWidth_result, setWidth_result, resultOf_setf hrun' hfitsg, resultOf_setf hrun' hfitsf,
      FieldDescr.insert_comm (fieldTable_disjoint hne.symm) hfitsf hfitsg]

theorem llmFth_ne_zero : Config.llmFth ≠ 0 := by
  intro h
  have hpos := llmFth_bounds.1
  rw [h] at hpos
  exact absurd hpos (by decide)

/-- GETF of SF reads LLM_SF from the low-latency word: the later write to FTH is in other bits (40_codec.md R87). -/
theorem extract_sf_lowLatency (w : ConfigWord) :
    (Config.fieldTable.get .sf).extract (Config.fieldTable.lowLatency Config.llmSf Config.llmFth w) =
      Config.llmSf.setWidth 16 :=
  (FieldDescr.extract_insert_of_disjoint (fieldTable_disjoint (by decide)) llmFth_fits _).trans
    (FieldDescr.extract_insert_same (fieldTable_inside .sf) llmSf_fits w)

theorem extract_fth_lowLatency (w : ConfigWord) :
    (Config.fieldTable.get .fth).extract (Config.fieldTable.lowLatency Config.llmSf Config.llmFth w) =
      Config.llmFth.setWidth 16 :=
  FieldDescr.extract_insert_same (fieldTable_inside .fth) llmFth_fits _

/-- The low-latency word keeps the bits outside SF and FTH (40_codec.md R87). -/
theorem lowLatency_and_unwritten (w : ConfigWord) :
    Config.fieldTable.lowLatency Config.llmSf Config.llmFth w &&& (0xE0FF : ConfigWord) =
      w &&& (0xE0FF : ConfigWord) :=
  (FieldDescr.insert_and_of_disjoint llmFth_fits (by decide) _).trans
    (FieldDescr.insert_and_of_disjoint llmSf_fits (by decide) w)

/-- Settles O36: the two fields of the low-latency word are `extract_sf_lowLatency` and `extract_fth_lowLatency`, its
other bits `lowLatency_and_unwritten`. -/
theorem llmLaw : Obligations.LlmLaw := by
  refine fun s s' w hrun hrun' => ⟨_, resultOf_llm hrun w, ?_⟩
  rw [setWidth_result, resultOf_getf hrun', resultOf_getf hrun', extract_sf_lowLatency, extract_fth_lowLatency,
    BitVec.setWidth_setWidth (by decide)]
  exact ⟨rfl, rfl, rfl, llmFth_ne_zero, lowLatency_and_unwritten w⟩

end Machine

end Sys2Proof

/-! ## 41_angle.md: the degree format, the displacement and the two angle commands (R100 to R107)

The layer of facts the statements need: DEGQ as a number and in degrees and its linearity, the displacement by its
window and its congruence (`displacement_eq_iff`) and as a 12-bit difference (`displacement_eq_toInt_sub`), and what S2D
and REL write in RUN. The proofs of the statements cite these and unfold neither `exec` nor `step`. -/

namespace Sys2Proof

/-! ### The degree format -/

/-- Two numbers that agree modulo 2^32 are the same DEGQ word (41_angle.md R102). -/
theorem degq_eq_ofNat {steps : Int} {n : Nat} (h : 45 * steps % 2 ^ 32 = (n : Int) % 2 ^ 32) :
    degq steps = BitVec.ofNat 32 n := by
  apply BitVec.eq_of_toNat_eq
  simp only [degq, Config.kDeg, BitVec.toNat_ofInt, BitVec.toNat_ofNat]
  omega

theorem degq_natCast (n : Nat) : degq n = BitVec.ofNat 32 (45 * n) := degq_eq_ofNat rfl

/-- DEGQ is linear in the steps, wraparound included (41_angle.md R106). -/
theorem degq_add (m n : Int) : degq (m + n) = degq m + degq n := by
  rw [degq, degq, degq, Int.mul_add, BitVec.ofInt_add]

/-- A DEGQ word stands for the real number steps * 360 / 4096 (41_angle.md R100). -/
theorem degrees_degq {steps : Int} (hlow : -40000000 ≤ steps) (hhigh : steps ≤ 40000000) :
    degrees (degq steps) = (steps : ℚ) * 360 / 4096 := by
  rw [degrees, degq_toInt hlow hhigh, Config.degFrac]
  push_cast
  ring

theorem stepCount_le (n : StepCount) : n.toNat ≤ 8191 := Nat.le_of_lt_succ n.isLt

theorem degq_stepCount_toInt (n : StepCount) : (degq n.toNat).toInt = 45 * n.toNat := by
  have hn := stepCount_le n
  exact degq_toInt (by omega) (by omega)

theorem degrees_stepCount (n : StepCount) : degrees (degq n.toNat) = (n.toNat : ℚ) * 360 / 4096 := by
  have hn := stepCount_le n
  exact degrees_degq (by omega) (by omega)

/-! ### The displacement -/

/-- The displacement is the one number of the window from -2048 to 2047 that is congruent to raw - center
(41_angle.md R102). -/
theorem displacement_eq_iff {raw center : RawAngle} {d : Int} :
    displacement raw center = d ↔
      (-2048 ≤ d ∧ d ≤ 2047) ∧ ((raw.toNat : Int) - center.toNat - d) % 4096 = 0 := by
  obtain ⟨k, hcongr, hlow, hhigh⟩ := displacement_spec raw center
  omega

theorem displacement_bounds (raw center : RawAngle) :
    -2048 ≤ displacement raw center ∧ displacement raw center ≤ 2047 :=
  (displacement_eq_iff.mp rfl).1

/-- The hardware form: the 12-bit difference read as two's complement (41_angle.md R103). -/
theorem displacement_eq_toInt_sub (raw center : RawAngle) : displacement raw center = (raw - center).toInt := by
  rw [displacement_eq_iff, BitVec.toInt_eq_toNat_cond, BitVec.toNat_sub]
  have hraw := raw.isLt
  have hcenter := center.isLt
  split <;> omega

theorem degq_displacement_toInt (raw center : RawAngle) :
    (degq (displacement raw center)).toInt = 45 * displacement raw center := by
  have hbounds := displacement_bounds raw center
  exact degq_toInt (by omega) (by omega)

theorem degrees_displacement (raw center : RawAngle) :
    degrees (degq (displacement raw center)) = (displacement raw center : ℚ) * 360 / 4096 := by
  have hbounds := displacement_bounds raw center
  exact degrees_degq (by omega) (by omega)

/-- The reference's number is the 32-bit pattern of 45 times the displacement (41_angle.md R102, R103). -/
theorem degq_displacement_eq_reference (raw center : RawAngle) :
    degq (displacement raw center) = BitVec.ofNat 32 (Reference.rel raw.toNat center.toNat) := by
  have hdiff :
      (((raw.toNat + 4096 - center.toNat) % 4096 : Nat) : Int) = ((raw.toNat : Int) - center.toNat) % 4096 := by
    have hcenter := center.isLt
    omega
  simp only [Reference.rel]
  generalize (raw.toNat + 4096 - center.toNat) % 4096 = d at hdiff ⊢
  split
  case isTrue hsmall =>
    have hdisp : displacement raw center = d := displacement_eq_iff.mpr (by omega)
    rw [hdisp, degq_natCast]
  case isFalse hlarge =>
    have hdisp : displacement raw center = d - 4096 := displacement_eq_iff.mpr (by omega)
    rw [hdisp]
    exact degq_eq_ofNat (by omega)

theorem displacement_self (a : RawAngle) : displacement a a = 0 := by
  rw [displacement_eq_toInt_sub, BitVec.sub_self, BitVec.toInt_zero]

/-- A raw angle written as the center plus an offset is displaced by the offset, read as two's complement. -/
theorem displacement_add_self (center offset : RawAngle) : displacement (center + offset) center = offset.toInt := by
  rw [displacement_eq_toInt_sub, add_sub_cancel_left]

/-- Moving both angles by the same amount moves nothing between them (41_angle.md R105). -/
theorem displacement_add_add (a b k : RawAngle) : displacement (a + k) (b + k) = displacement a b := by
  rw [displacement_eq_toInt_sub, displacement_eq_toInt_sub, add_sub_add_right_eq_sub]

/-- Every step count of the window is the displacement of some pair of angles (41_angle.md R104). -/
theorem displacement_ofInt_zero {d : Int} (hlow : -2048 ≤ d) (hhigh : d ≤ 2047) :
    displacement (BitVec.ofInt 12 d) 0 = d := by
  rw [displacement_eq_toInt_sub, sub_zero, BitVec.toInt_ofInt]
  exact Int.bmod_eq_of_le (by omega) (by omega)

/-- The half turn is where the displacement is at the bottom of its window (41_angle.md R104). -/
theorem displacement_eq_neg_half_iff {a b : RawAngle} :
    displacement a b = -2048 ↔ ((a.toNat : Int) - b.toNat) % 4096 = 2048 := by
  rw [displacement_eq_iff]
  omega

/-- Antisymmetry off the half turn: the negated displacement is still in the window (41_angle.md R105). -/
theorem displacement_swap {a b : RawAngle} (h : displacement a b ≠ -2048) :
    displacement b a = -displacement a b := by
  obtain ⟨k, hcongr, hlow, hhigh⟩ := displacement_spec a b
  rw [displacement_eq_iff]
  omega

/-- The half turn is the same both ways (41_angle.md R105). -/
theorem displacement_swap_half {a b : RawAngle} (h : displacement a b = -2048) : displacement b a = -2048 := by
  rw [displacement_eq_neg_half_iff] at h ⊢
  omega

/-- One raw step further is one step more displacement, wrapped around at 12 bits (41_angle.md R105). -/
theorem displacement_add_one (a b : RawAngle) :
    displacement (a + 1) b = (displacement a b + 1).bmod (2 ^ 12) := by
  rw [displacement_eq_toInt_sub, displacement_eq_toInt_sub, add_sub_right_comm, BitVec.toInt_add]
  rfl

theorem displacement_add_one_of_ne {a b : RawAngle} (h : displacement a b ≠ 2047) :
    displacement (a + 1) b = displacement a b + 1 := by
  have hbounds := displacement_bounds a b
  rw [displacement_add_one]
  exact Int.bmod_eq_of_le (by omega) (by omega)

/-- The one jump, at the half turn away from the center (41_angle.md R105). -/
theorem displacement_add_one_of_eq {a b : RawAngle} (h : displacement a b = 2047) :
    displacement (a + 1) b = -2048 := by
  rw [displacement_add_one, h]
  rfl

/-- Where the naive difference is in the window it is the displacement (41_angle.md R105). -/
theorem displacement_eq_sub {a b : RawAngle} (hlow : -2048 ≤ (a.toNat : Int) - b.toNat)
    (hhigh : (a.toNat : Int) - b.toNat ≤ 2047) : displacement a b = a.toNat - b.toNat :=
  displacement_eq_iff.mpr ⟨⟨hlow, hhigh⟩, by rw [Int.sub_self, Int.zero_emod]⟩

/-- Settles O41: the laws are the lemmas above, one each; the half turn is a displacement of -2048 by
`displacement_eq_neg_half_iff`. -/
theorem relLaws : Obligations.RelLaws := by
  refine ⟨displacement_self, by decide, fun a b k => displacement_add_add a b _, ?antisymmetry, ?continuity,
    fun _ _ => displacement_eq_sub⟩
  case antisymmetry =>
    intro a b
    rw [ne_eq, ← displacement_eq_neg_half_iff]
    exact ⟨displacement_swap, fun h => ⟨displacement_swap_half h, h⟩⟩
  case continuity => exact fun _ _ => ⟨displacement_add_one_of_ne, displacement_add_one_of_eq⟩

namespace Machine

/-! ### S2D and REL in RUN -/

theorem exec_s2d_in_run {s : State} (hrun : s.mode = .run) (n : StepCount) :
    exec (.s2d n) s = .next { s with res := degq n.toNat } :=
  exec_of_ok_in_run hrun rfl

theorem exec_rel_in_run {s : State} (hrun : s.mode = .run) (center raw : RawAngle) :
    exec (.rel center raw) s = .next { s with res := degq (displacement raw center) } :=
  exec_of_ok_in_run hrun rfl

theorem resultOf_s2d {s : State} (hrun : s.mode = .run) (n : StepCount) :
    s.resultOf (.s2d n) = some (degq n.toNat) :=
  State.resultOf_eq_some.mpr ⟨hrun, rfl⟩

/-- REL of the center moved on by an offset depends on the offset alone (41_angle.md R102). -/
theorem exec_rel_add_in_run {s : State} (hrun : s.mode = .run) (center offset : RawAngle) :
    exec (.rel center (center + offset)) s = .next { s with res := degq offset.toInt } := by
  rw [exec_rel_in_run hrun, displacement_add_self]

/-! ### The statements -/

/-- Settles O37: S2D writes the DEGQ word of its steps, `degq_natCast` as a number; the corner cases are closed. -/
theorem s2dMultipliesByTheConstant : Obligations.S2dMultipliesByTheConstant := by
  refine ⟨?completes, ?corners, ?illegal, ?encoding⟩
  case completes =>
    intro s n hrun
    rw [← degq_natCast]
    exact ⟨exec_s2d_in_run hrun n, Nat.mul_le_mul_left 45 (stepCount_le n)⟩
  case corners =>
    exact fun s hrun =>
      ⟨exec_s2d_in_run hrun 0, exec_s2d_in_run hrun 4096, exec_s2d_in_run hrun 4095, exec_s2d_in_run hrun 2⟩
  case illegal =>
    intro s c rest hacc hop hres
    have hbit : Reference.reservedBitSet c.toNat := by
      unfold Reference.reservedBitSet
      omega
    exact step_of_reserved hacc (.inr (.inr hbit))
  case encoding => exact fun n => by simp [encode, formatS_toNat]

/-- Settles O38: REL writes the DEGQ word of the displacement, by `degq_displacement_eq_reference` the reference's
number; in the corner cases raw is the center and an offset. -/
theorem relGivesTheCenteredDisplacement : Obligations.RelGivesTheCenteredDisplacement := by
  refine ⟨?completes, ?corners, ?illegal, ?encoding⟩
  case completes =>
    intro s k r hrun
    rw [← degq_displacement_eq_reference]
    exact ⟨exec_rel_in_run hrun k r, exec_rel_in_run hrun k r⟩
  case corners =>
    intro s k hrun
    have hself := exec_rel_in_run hrun k k
    rw [displacement_self] at hself
    exact ⟨hself, exec_rel_add_in_run hrun k 2048, exec_rel_add_in_run hrun k 2047, exec_rel_add_in_run hrun k 2049,
      exec_rel_in_run hrun 4095 1, exec_rel_in_run hrun 1 4095, exec_rel_in_run hrun 4000 100⟩
  case illegal =>
    intro s c rest hacc hop hres
    have hbit : Reference.reservedBitSet c.toNat := by
      unfold Reference.reservedBitSet
      omega
    exact step_of_reserved hacc (.inr (.inr hbit))
  case encoding => exact fun k r => by simp [encode, formatA_toNat]

/-- Settles O39: the hardware form is `displacement_eq_toInt_sub`. -/
theorem relIsTheTwelveBitDifference : Obligations.RelIsTheTwelveBitDifference := by
  intro s k r hrun
  rw [← displacement_eq_toInt_sub]
  exact ⟨rfl, _, exec_rel_in_run hrun k r, degq_displacement_toInt r k⟩

/-- Settles O40: the degrees are the steps times 360 / 4096 (`degrees_displacement`), so their range is the range of
the steps, and the least of them is the half turn by `displacement_eq_neg_half_iff`. -/
theorem relRange : Obligations.RelRange := by
  refine ⟨?range, ?occurs⟩
  case range =>
    intro s k r hrun
    obtain ⟨hlow, hhigh⟩ := displacement_bounds r k
    refine ⟨_, exec_rel_in_run hrun k r, hlow, hhigh, degrees_displacement r k, ?_⟩
    rw [degrees_displacement, ← displacement_eq_neg_half_iff]
    have hlow' : (-2048 : ℚ) ≤ displacement r k := by exact_mod_cast hlow
    have hhigh' : (displacement r k : ℚ) ≤ 2047 := by exact_mod_cast hhigh
    refine ⟨by linarith, by linarith, by linarith, fun h => ?_, fun h => ?_⟩
    · have hsteps : (displacement r k : ℚ) = -2048 := by linarith
      exact_mod_cast hsteps
    · rw [h]
      norm_num
  case occurs => exact fun d hlow hhigh => ⟨0, _, displacement_ofInt_zero hlow hhigh⟩

/-- Settles O42: a result is the DEGQ word of the steps, which is linear in them (`degq_add`), and its degrees are the
steps times 360 / 4096 (`degrees_stepCount`). -/
theorem s2dLaws : Obligations.S2dLaws := by
  refine fun s hrun => ⟨⟨_, resultOf_s2d hrun 0, ?zero⟩, ⟨_, resultOf_s2d hrun 4096, ?revolution⟩, ?linear, ?range⟩
  case zero =>
    rw [degrees_stepCount]
    simp
  case revolution =>
    rw [degrees_stepCount, show (4096 : StepCount).toNat = 4096 from rfl]
    norm_num
  case linear =>
    intro a b hab
    have hsum : (a + b).toNat = a.toNat + b.toNat := BitVec.toNat_add_of_lt (Nat.lt_succ_of_le hab)
    have hword : degq (a + b).toNat = degq a.toNat + degq b.toNat := by rw [hsum, Nat.cast_add, degq_add]
    refine ⟨_, _, resultOf_s2d hrun a, resultOf_s2d hrun b, ?_, ?_⟩
    · rw [resultOf_s2d hrun, hword]
    · rw [← hword, degrees_stepCount, degrees_stepCount, degrees_stepCount, hsum]
      push_cast
      ring
  case range =>
    intro n hn
    refine ⟨_, resultOf_s2d hrun n, ?_⟩
    have hlow : (0 : ℚ) ≤ n.toNat := Nat.cast_nonneg _
    have hhigh : (n.toNat : ℚ) < 4096 := by exact_mod_cast hn
    rw [degrees_stepCount]
    constructor <;> linarith

/-- Settles O43: both commands write the DEGQ word of their steps, so equal steps leave equal states. -/
theorem oneConversionConstant : Obligations.OneConversionConstant := by
  intro s k r n hrun
  refine ⟨⟨_, exec_rel_in_run hrun k r, degq_displacement_toInt r k⟩,
    ⟨_, exec_s2d_in_run hrun n, degq_stepCount_toInt n⟩, fun h => ?_⟩
  rw [exec_rel_in_run hrun, exec_s2d_in_run hrun, h]

end Machine

end Sys2Proof

/-! ## 60_exceptions.md: the fault state, error entry and the order of the errors (R122 to R127)

The layer of facts the statements need: one edge from a state of RUN and from a faulted state, everything one edge can
do (`step_cases`), what a word asks for as numbers (`reference_result_eq_asNumbers`), and which words raise which error.
The proofs of the statements cite these and unfold neither `exec` nor `step`. -/

namespace Sys2Proof

/-! ### The selector, the reserved words and the reference's parts -/

theorem FieldSel.bits_named_ne_three (f : Field) : (FieldSel.named f).bits.toNat ≠ 3 :=
  mt FieldSel.bits_toNat_eq_three.mp nofun

/-- The codes of FSEL that select the two narrow fields (00_scope.md R7). -/
theorem FieldSel.bits_toNat_narrow_iff {f : FieldSel} :
    f.bits.toNat = 0 ∨ f.bits.toNat = 2 ↔ f = .named .sf ∨ f = .named .pm := by
  rcases f with (_ | _ | _) | _ <;> decide

/-- A word with no reserved opcode and no nonzero reserved-zero bit spells a command (30_encoding.md R67, R68). -/
theorem decode_eq_ok_of_not_reserved {c : Word}
    (h : ¬ (c.toNat / 2 ^ 29 = 0 ∨ c.toNat / 2 ^ 29 = 7 ∨ Reference.reservedBitSet c.toNat)) :
    ∃ i, decode c = .ok i := by
  have hc := c.isLt
  unfold Reference.reservedBitSet at h
  have hop : c.toNat / 2 ^ 29 = 1 ∨ c.toNat / 2 ^ 29 = 2 ∨ c.toNat / 2 ^ 29 = 3 ∨ c.toNat / 2 ^ 29 = 4 ∨
    c.toNat / 2 ^ 29 = 5 ∨ c.toNat / 2 ^ 29 = 6 := by omega
  rcases hop with hop | hop | hop | hop | hop | hop
  · exact ⟨_, decode_of_spelledBy (i := .getf _ _) ⟨by omega, rfl, rfl⟩⟩
  · exact ⟨_, decode_of_spelledBy (i := .setf _ _ _) ⟨by omega, rfl, rfl, rfl⟩⟩
  · exact ⟨_, decode_of_spelledBy (i := .mask _) ⟨⟨by omega, by omega⟩, rfl⟩⟩
  · exact ⟨_, decode_of_spelledBy (i := .llm _) ⟨by omega, rfl⟩⟩
  · exact ⟨_, decode_of_spelledBy (i := .s2d _) ⟨by omega, rfl⟩⟩
  · exact ⟨_, decode_of_spelledBy (i := .rel _ _) ⟨by omega, rfl, rfl⟩⟩

/-- The reference's error for a word with a reserved opcode or a nonzero reserved-zero bit is code 3. -/
theorem Reference.result_of_reserved {l c : Nat} (h : c / 2 ^ 29 = 0 ∨ c / 2 ^ 29 = 7 ∨ Reference.reservedBitSet c) :
    Reference.result l c = .error 3 := by
  rcases h with hop | hop | ⟨hop, hbits⟩ | ⟨hop, hbits⟩ | ⟨hop, hbits⟩ | ⟨hop, hbits⟩ | ⟨hop, hbits⟩ | ⟨hop, hbits⟩ <;>
    simp only [Reference.result, hop]
  all_goals exact if_pos hbits

theorem Reference.off_named (f : Field) :
    Reference.off (FieldSel.named f).bits.toNat = (Config.fieldTable.get f).off := by
  cases f <;> rfl

theorem Reference.width_named (f : Field) :
    Reference.width (FieldSel.named f).bits.toNat = (Config.fieldTable.get f).width := by
  cases f <;> rfl

/-- REL's number is a 32-bit pattern (41_angle.md R103). -/
theorem Reference.rel_lt (raw center : Nat) : Reference.rel raw center < 2 ^ 32 := by
  simp only [Reference.rel]
  split <;> omega

namespace Machine

/-! ### One edge -/

section Edge

variable {s t : State} {c : Word} {rest : List EdgeInput}

/-- In RUN a word that asks for a value has it written to RES, and nothing else changes (20_memory.md R46). -/
theorem step_of_accepts_ok {v : Word} (h : s.accepts c rest) (hres : resultOfWord c = .ok v) :
    step s = .next { s with res := v, edges := rest } := by
  obtain ⟨hrun, hedges⟩ := h
  rw [step_of_command_edge hedges, hres, complete_ok (s := { s with edges := rest }) (State.mode_eq_run.mp hrun)]
  rfl

/-- In RUN a word that raises an error has its code written to STAT.ERR, and nothing else changes
(60_exceptions.md R123). -/
theorem step_of_accepts_error {e : Cause} (h : s.accepts c rest) (hres : resultOfWord c = .error e) :
    step s = .next { s with err := e.code, edges := rest } := by
  obtain ⟨hrun, hedges⟩ := h
  rw [step_of_command_edge hedges, hres, complete_error (s := { s with edges := rest }) (State.mode_eq_run.mp hrun)]
  rfl

/-- Past the listed edges nothing happens (log 1). -/
theorem step_of_no_edge (hedges : s.edges = []) : step s = .next { s with edges := [] } := by
  obtain ⟨res, err, edges⟩ := s
  obtain rfl : edges = [] := hedges
  rfl

/-- From a faulted state an edge without reset only goes by (60_exceptions.md R124). -/
theorem step_of_edge_in_fault {e : EdgeInput} (hfault : s.err ≠ .none) (hedges : s.edges = e :: rest)
    (hrst : e.rstN = true) : step s = .next { s with edges := rest } := by
  obtain ⟨rstN, cmdValid, c⟩ := e
  obtain rfl : rstN = true := hrst
  cases cmdValid with
  | true => exact step_of_command_edge_in_fault hedges (State.mode_eq_fault.mpr hfault)
  | false => exact step_of_idle_edge hedges

/-- One edge does one of four things: it resets, it only goes by (no edge listed, an idle edge, or any word in FAULT),
it writes the result of the word accepted in RUN, or it enters the error of that word. -/
theorem step_cases (h : step s = .next t) :
    (∃ e rest, s.edges = e :: rest ∧ e.rstN = false ∧ t = { State.reset with edges := rest }) ∨
    t = { s with edges := s.edges.tail } ∨
    (∃ c rest v, s.accepts c rest ∧ resultOfWord c = .ok v ∧ t = { s with res := v, edges := rest }) ∨
    (∃ c rest e, s.accepts c rest ∧ resultOfWord c = .error e ∧ t = { s with err := e.code, edges := rest }) := by
  cases hedges : s.edges with
  | nil =>
    rw [step_of_no_edge hedges] at h
    exact .inr (.inl (Host.Outcome.next.inj h).symm)
  | cons e rest =>
    obtain ⟨rstN, cmdValid, c⟩ := e
    match rstN, cmdValid with
    | false, _ =>
      rw [step_of_reset_edge hedges rfl] at h
      exact .inl ⟨_, rest, rfl, rfl, (Host.Outcome.next.inj h).symm⟩
    | true, false =>
      rw [step_of_idle_edge hedges] at h
      exact .inr (.inl (Host.Outcome.next.inj h).symm)
    | true, true =>
      by_cases hrun : s.mode = .run
      · have haccepts : s.accepts c rest := ⟨hrun, hedges⟩
        cases hres : resultOfWord c with
        | ok v =>
          rw [step_of_accepts_ok haccepts hres] at h
          exact .inr (.inr (.inl ⟨c, rest, v, haccepts, hres, (Host.Outcome.next.inj h).symm⟩))
        | error e =>
          rw [step_of_accepts_error haccepts hres] at h
          exact .inr (.inr (.inr ⟨c, rest, e, haccepts, hres, (Host.Outcome.next.inj h).symm⟩))
      · have hfault : s.err ≠ .none := mt State.mode_eq_run.mpr hrun
        rw [step_of_edge_in_fault hfault hedges rfl] at h
        exact .inr (.inl (Host.Outcome.next.inj h).symm)

end Edge

/-! ### Runs in the fault state -/

theorem State.noResetWithin_succ {s : State} {k : Nat} {e : EdgeInput} {rest : List EdgeInput}
    (hedges : s.edges = e :: rest) (h : s.noResetWithin (k + 1)) :
    e.rstN = true ∧ ({ s with edges := rest } : State).noResetWithin k := by
  rw [State.noResetWithin, hedges, List.take_succ_cons, List.forall_mem_cons] at h
  exact h

/-- From a faulted state a run without reset only uses up its edges (60_exceptions.md R124, R125). -/
theorem run_in_fault {k : Nat} {s : State} (hfault : s.err ≠ .none) (hk : k ≤ s.edges.length)
    (hrst : s.noResetWithin k) : Host.Core.run core k s = .next { s with edges := s.edges.drop k } := by
  induction k generalizing s with
  | zero => rfl
  | succ k ih =>
    obtain ⟨e, rest, hedges⟩ := List.exists_cons_of_length_pos (Nat.zero_lt_of_lt hk)
    obtain ⟨he, hrest⟩ := State.noResetWithin_succ hedges hrst
    have hlen : k ≤ rest.length := by simpa [hedges] using hk
    rw [core_run_succ (step_of_edge_in_fault hfault hedges he), ih (s := { s with edges := rest }) hfault hlen hrest,
      hedges, List.drop_succ_cons]

/-- Settles O24: the run only uses up its edges, `run_in_fault`. -/
theorem firstErrorSticksUntilReset : Obligations.FirstErrorSticksUntilReset := by
  intro k s hfault hk hrst
  have hflt : s.flt = true := hfault
  exact ⟨_, run_in_fault (State.flt_eq_true.mp hflt) hk hrst, rfl, rfl, hflt, if_pos hflt⟩

/-- Settles O23: an edge that accepts a word has no effect in FAULT, and STAT is read off ERR. -/
theorem faultStateIgnoresEveryWord : Obligations.FaultStateIgnoresEveryWord :=
  fun _ _ _ hfault hedges => ⟨step_of_command_edge_in_fault hedges (State.mode_eq_fault.mpr hfault), rfl⟩

/-! ### What a word asks for, as numbers -/

/-- A result or an error as the arithmetic reference writes it: the number for RES, or the number of the code. -/
def asNumbers : Except Cause Word → Except Nat Nat
  | .ok v => .ok v.toNat
  | .error e => .error e.code.bits.toNat

theorem asNumbers_eq_error {r : Except Cause Word} {n : Nat} :
    asNumbers r = .error n ↔ ∃ e, r = .error e ∧ e.code.bits.toNat = n := by
  cases r <;> simp [asNumbers]

/-- A codec result is the number of its 16-bit word (10_state.md R21). -/
theorem asNumbers_codec (w : ConfigWord) : asNumbers (.ok (w.setWidth 32)) = .ok w.toNat := by
  rw [asNumbers, BitVec.toNat_setWidth_of_le (by decide)]

section Numbers

variable {c : Word} {l : Nat}

theorem reference_result_getf {fsel : FieldSel} {word : ConfigWord} (h : (Instr.getf fsel word).spelledBy c) :
    Reference.result l c.toNat = asNumbers (getfResult fsel word) := by
  obtain ⟨hhigh, hfsel, rfl⟩ := h
  have hop : c.toNat / 2 ^ 29 = 1 := by omega
  have hzero : ¬ c.toNat / 2 ^ 18 % 2 ^ 11 ≠ 0 := by omega
  simp only [Reference.result, hop, if_neg hzero, ← fselField_bits_toNat, ← wordField_toNat, hfsel]
  cases fsel with
  | reserved => rfl
  | named f =>
    rw [if_neg (FieldSel.bits_named_ne_three f), Reference.off_named, Reference.width_named, getfResult_named,
      asNumbers_codec, extract_toNat_eq _ _ (fieldTable_inside f)]

theorem reference_result_setf {val : FieldValue} {fsel : FieldSel} {word : ConfigWord}
    (h : (Instr.setf val fsel word).spelledBy c) :
    Reference.result l c.toNat = asNumbers (setfResult val fsel word) := by
  obtain ⟨hhigh, rfl, hfsel, rfl⟩ := h
  have hop : c.toNat / 2 ^ 29 = 2 := by omega
  have hzero : ¬ c.toNat / 2 ^ 21 % 2 ^ 8 ≠ 0 := by omega
  simp only [Reference.result, hop, if_neg hzero, ← fselField_bits_toNat, ← valField_toNat, ← wordField_toNat, hfsel]
  cases fsel with
  | reserved => rfl
  | named f =>
    rw [if_neg (FieldSel.bits_named_ne_three f), Reference.off_named, Reference.width_named]
    by_cases hfits : (Config.fieldTable.get f).fits (valField c) = true
    · rw [if_neg (Nat.not_le.mpr (of_decide_eq_true hfits)), setfResult_fits hfits, asNumbers_codec,
        FieldDescr.insert_toNat (fieldTable_inside f) hfits]
    · rw [if_pos (Nat.not_lt.mp (mt decide_eq_true hfits)), setfResult_too_wide hfits]
      rfl

theorem reference_result_mask {fsel : FieldSel} (h : (Instr.mask fsel).spelledBy c) :
    Reference.result l c.toNat = asNumbers (maskResult fsel) := by
  obtain ⟨⟨hhigh, hword⟩, hfsel⟩ := h
  have hop : c.toNat / 2 ^ 29 = 3 := by omega
  have hzero : ¬ (c.toNat / 2 ^ 18 % 2 ^ 11 ≠ 0 ∨ c.toNat % 2 ^ 16 ≠ 0) := by omega
  simp only [Reference.result, hop, if_neg hzero, ← fselField_bits_toNat, hfsel]
  cases fsel with
  | reserved => rfl
  | named f =>
    rw [if_neg (FieldSel.bits_named_ne_three f), Reference.off_named, Reference.width_named, maskResult_named,
      asNumbers_codec, fieldTable_mask_toNat]

theorem reference_result_llm {word : ConfigWord} (h : (Instr.llm word).spelledBy c) :
    Reference.result Config.llmFth.toNat c.toNat = asNumbers (llmResult word) := by
  obtain ⟨hhigh, rfl⟩ := h
  have hop : c.toNat / 2 ^ 29 = 4 := by omega
  have hzero : ¬ c.toNat / 2 ^ 16 % 2 ^ 13 ≠ 0 := by omega
  simp only [Reference.result, hop, if_neg hzero, ← wordField_toNat]
  rw [llmResult, asNumbers_codec, lowLatency_toNat]
  rfl

theorem reference_result_s2d {steps : StepCount} (h : (Instr.s2d steps).spelledBy c) :
    Reference.result l c.toNat = asNumbers (s2dResult steps) := by
  obtain ⟨hhigh, rfl⟩ := h
  have hop : c.toNat / 2 ^ 29 = 5 := by omega
  have hzero : ¬ c.toNat / 2 ^ 13 % 2 ^ 16 ≠ 0 := by omega
  have hsteps := stepCount_le (stepsField c)
  simp only [Reference.result, hop, if_neg hzero, ← stepsField_toNat]
  rw [s2dResult, asNumbers, degq_natCast, BitVec.toNat_ofNat, Nat.mod_eq_of_lt (by omega)]

theorem reference_result_rel {center raw : RawAngle} (h : (Instr.rel center raw).spelledBy c) :
    Reference.result l c.toNat = asNumbers (relResult center raw) := by
  obtain ⟨hhigh, rfl, rfl⟩ := h
  have hop : c.toNat / 2 ^ 29 = 6 := by omega
  have hzero : ¬ c.toNat / 2 ^ 24 % 2 ^ 5 ≠ 0 := by omega
  simp only [Reference.result, hop, if_neg hzero, ← centerField_toNat, ← rawField_toNat]
  rw [relResult, asNumbers, degq_displacement_eq_reference, BitVec.toNat_ofNat,
    Nat.mod_eq_of_lt (Reference.rel_lt _ _)]

/-- On a word that spells a command the reference gives what the command computes (40_codec.md R82 to R85,
41_angle.md R101, R102). -/
theorem reference_result_of_spelledBy {i : Instr} (h : i.spelledBy c) :
    Reference.result Config.llmFth.toNat c.toNat = asNumbers (resultOfInstr i) := by
  cases i with
  | getf => exact reference_result_getf h
  | setf => exact reference_result_setf h
  | mask => exact reference_result_mask h
  | llm => exact reference_result_llm h
  | s2d => exact reference_result_s2d h
  | rel => exact reference_result_rel h

end Numbers

/-- The arithmetic reference gives what a word asks for, on every word. -/
theorem reference_result_eq_asNumbers (c : Word) :
    Reference.result Config.llmFth.toNat c.toNat = asNumbers (resultOfWord c) := by
  by_cases h : c.toNat / 2 ^ 29 = 0 ∨ c.toNat / 2 ^ 29 = 7 ∨ Reference.reservedBitSet c.toNat
  · rw [Reference.result_of_reserved h, resultOfWord_eq_illegalCmd_iff.mpr (decode_ne_ok_of_reserved h)]
    rfl
  · obtain ⟨i, hdec⟩ := decode_eq_ok_of_not_reserved h
    rw [resultOfWord_of_decode_ok hdec, reference_result_of_spelledBy (spelledBy_of_decode hdec)]

/-- The reference raises exactly the errors the machine raises, with their codes (60_exceptions.md R120). -/
theorem reference_result_eq_error_iff {c : Word} {n : Nat} :
    Reference.result Config.llmFth.toNat c.toNat = .error n ↔
      ∃ e, resultOfWord c = .error e ∧ e.code.bits.toNat = n := by
  rw [reference_result_eq_asNumbers, asNumbers_eq_error]

/-! ### The err port and the error entry -/

/-- Settles O26: a word accepted in RUN either writes a result, and then ERR stays 0, or is the error entry of the
error the reference raises. -/
theorem errorEntryWritesOnlyTheCode : Obligations.ErrorEntryWritesOnlyTheCode := by
  intro s t c rest haccepts hstep herr
  cases hres : resultOfWord c with
  | ok v =>
    rw [step_of_accepts_ok haccepts hres] at hstep
    obtain rfl := Host.Outcome.next.inj hstep
    exact absurd (State.mode_eq_run.mp haccepts.1) herr
  | error e =>
    rw [step_of_accepts_error haccepts hres] at hstep
    obtain rfl := Host.Outcome.next.inj hstep
    have hflt := State.flt_eq_true.mpr herr
    exact ⟨rfl, hflt, hflt, reference_result_eq_error_iff.mpr ⟨e, hres, rfl⟩⟩

/-- Settles O25: of the four things an edge can do (`step_cases`) only the error entry raises ERR from 0 and only a
reset clears it, and the error entry is at the words for which the reference raises an error. -/
theorem errPortRisesWithTheFirstError : Obligations.ErrPortRisesWithTheFirstError := by
  refine ⟨?port, ?rises, ?only_there, ?falls⟩
  case port => exact fun s => (State.stat_flt_bit s).symm
  case rises =>
    intro s c rest n haccepts href
    obtain ⟨e, hres, hcode⟩ := reference_result_eq_error_iff.mp href
    exact ⟨State.flt_eq_false.mpr (State.mode_eq_run.mp haccepts.1), _, step_of_accepts_error haccepts hres,
      State.flt_eq_true.mpr e.code_ne_none, hcode, rfl⟩
  case only_there =>
    intro s t hstep hlow hhigh
    rw [State.outputs_err, State.flt_eq_false] at hlow
    rw [State.outputs_err, State.flt_eq_true] at hhigh
    obtain ⟨_, _, -, -, rfl⟩ | rfl | ⟨_, _, _, -, -, rfl⟩ | ⟨c, rest, e, haccepts, hres, rfl⟩ := step_cases hstep
    · exact absurd rfl hhigh
    · exact absurd hlow hhigh
    · exact absurd hlow hhigh
    · exact ⟨c, rest, haccepts, rfl, reference_result_eq_error_iff.mpr ⟨e, hres, rfl⟩⟩
  case falls =>
    intro s t hstep hhigh hlow
    rw [State.outputs_err, State.flt_eq_true] at hhigh
    rw [State.outputs_err, State.flt_eq_false] at hlow
    obtain ⟨e, rest, hedges, hrst, -⟩ | rfl | ⟨_, _, _, -, -, rfl⟩ | ⟨_, _, e, -, -, rfl⟩ := step_cases hstep
    · exact ⟨e, by rw [hedges, List.head?_cons], hrst⟩
    · exact absurd hlow hhigh
    · exact absurd hlow hhigh
    · exact absurd hlow e.code_ne_none

/-! ### The order of the errors -/

/-- The code an accepted word leaves in STAT.ERR in RUN: 0 with a result, else the error's code. -/
def codeOf : Except Cause Word → ErrCode
  | .ok _ => .none
  | .error e => e.code

theorem step_of_accepts_err {s : State} {c : Word} {rest : List EdgeInput} (h : s.accepts c rest) :
    ∃ t, step s = .next t ∧ t.err = codeOf (resultOfWord c) := by
  cases hres : resultOfWord c with
  | ok v => exact ⟨_, step_of_accepts_ok h hres, State.mode_eq_run.mp h.1⟩
  | error e => exact ⟨_, step_of_accepts_error h hres, rfl⟩

/-- SETF's value is too wide exactly for SF and PM with VAL 4 to 7 (40_codec.md R83). -/
theorem not_fits_iff {f : Field} {v : FieldValue} :
    ¬ (Config.fieldTable.get f).fits v = true ↔ (f = .sf ∨ f = .pm) ∧ 4 ≤ v.toNat := by
  rw [FieldDescr.fits, decide_eq_true_eq, Nat.not_lt]
  refine ⟨narrow_field_of_too_wide, ?_⟩
  rintro ⟨rfl | rfl, hv⟩ <;> exact hv

section Priority

variable {c : Word} {i : Instr}

/-- A field command with FSEL = 3 raises ILLEGAL_FIELD: OP at most 3 leaves GETF, SETF and MASK
(60_exceptions.md R122). -/
theorem resultOfInstr_of_reserved_selector (h : i.spelledBy c) (hop : c.toNat / 2 ^ 29 ≤ 3)
    (hsel : c.toNat / 2 ^ 16 % 4 = 3) : resultOfInstr i = .error .illegalField := by
  have hfsel := fselField_eq_reserved hsel
  cases i with
  | getf fsel word =>
    obtain ⟨-, rfl, -⟩ := h
    rw [hfsel]
    exact getfResult_reserved word
  | setf val fsel word =>
    obtain ⟨-, -, rfl, -⟩ := h
    rw [hfsel]
    exact setfResult_reserved val word
  | mask fsel =>
    obtain ⟨-, rfl⟩ := h
    rw [hfsel]
    exact maskResult_reserved
  | llm | s2d | rel =>
    obtain ⟨hhigh, -⟩ := h
    omega

/-- SETF of SF or PM with VAL at least 4 raises RANGE (60_exceptions.md R122). -/
theorem resultOfInstr_of_too_wide (h : i.spelledBy c) (hop : c.toNat / 2 ^ 29 = 2)
    (hsel : c.toNat / 2 ^ 16 % 4 = 0 ∨ c.toNat / 2 ^ 16 % 4 = 2) (hval : 4 ≤ c.toNat / 2 ^ 18 % 8) :
    resultOfInstr i = .error .range := by
  rw [← fselField_bits_toNat, FieldSel.bits_toNat_narrow_iff] at hsel
  rw [← valField_toNat] at hval
  cases i with
  | setf val fsel word =>
    obtain ⟨-, rfl, rfl, -⟩ := h
    obtain hsf | hpm := hsel
    · rw [hsf]
      exact setfResult_too_wide (not_fits_iff.mpr ⟨.inl rfl, hval⟩) word
    · rw [hpm]
      exact setfResult_too_wide (not_fits_iff.mpr ⟨.inr rfl, hval⟩) word
  | mask =>
    obtain ⟨⟨hhigh, -⟩, -⟩ := h
    omega
  | getf | llm | s2d | rel =>
    obtain ⟨hhigh, -⟩ := h
    omega

/-- A command in neither class has a result (60_exceptions.md R122). -/
theorem resultOfInstr_of_no_error (h : i.spelledBy c)
    (hfield : ¬ (c.toNat / 2 ^ 29 ≤ 3 ∧ c.toNat / 2 ^ 16 % 4 = 3))
    (hrange : ¬ (c.toNat / 2 ^ 29 = 2 ∧ (c.toNat / 2 ^ 16 % 4 = 0 ∨ c.toNat / 2 ^ 16 % 4 = 2) ∧
      4 ≤ c.toNat / 2 ^ 18 % 8)) : ∃ v, resultOfInstr i = .ok v := by
  rw [← fselField_bits_toNat, FieldSel.bits_toNat_eq_three] at hfield
  rw [← fselField_bits_toNat, FieldSel.bits_toNat_narrow_iff, ← valField_toNat] at hrange
  cases i with
  | getf fsel word =>
    obtain ⟨hhigh, rfl, -⟩ := h
    cases hfsel : fselField c with
    | named f => exact ⟨_, getfResult_named f word⟩
    | reserved => exact absurd ⟨by omega, hfsel⟩ hfield
  | setf val fsel word =>
    obtain ⟨hhigh, rfl, rfl, -⟩ := h
    cases hfsel : fselField c with
    | named f =>
      refine ⟨_, setfResult_fits (not_not.mp fun hwide => hrange ⟨by omega, ?_⟩) word⟩
      simpa [hfsel] using not_fits_iff.mp hwide
    | reserved => exact absurd ⟨by omega, hfsel⟩ hfield
  | mask fsel =>
    obtain ⟨⟨hhigh, -⟩, rfl⟩ := h
    cases hfsel : fselField c with
    | named f => exact ⟨_, maskResult_named f⟩
    | reserved => exact absurd ⟨by omega, hfsel⟩ hfield
  | llm | s2d | rel => exact ⟨_, rfl⟩

end Priority

/-- Settles O27: a word with a reserved opcode or bit is the entry of ILLEGAL_CMD (`step_of_reserved`); any other word
spells a command, and the command's class gives its error. -/
theorem errorPriority : Obligations.ErrorPriority := by
  refine ⟨fun s c rest haccepts => ?order, fun _ _ haccepts => step_of_accepts_error haccepts rfl,
    fun _ _ haccepts => step_of_accepts_error haccepts rfl⟩
  by_cases hres : c.toNat / 2 ^ 29 = 0 ∨ c.toNat / 2 ^ 29 = 7 ∨ Reference.reservedBitSet c.toNat
  · exact ⟨_, step_of_reserved haccepts hres, fun _ => rfl, fun h => absurd hres h⟩
  · obtain ⟨i, hdec⟩ := decode_eq_ok_of_not_reserved hres
    have hspells := spelledBy_of_decode hdec
    obtain ⟨t, hstep, herr⟩ := step_of_accepts_err haccepts
    rw [resultOfWord_of_decode_ok hdec] at herr
    refine ⟨t, hstep, fun h => absurd h hres, fun _ => ⟨?illegal_field, ?range, ?none⟩⟩
    case illegal_field =>
      rintro ⟨hop, hsel⟩
      rw [herr, resultOfInstr_of_reserved_selector hspells hop hsel]
      rfl
    case range =>
      rintro ⟨hop, hsel, hval⟩
      rw [herr, resultOfInstr_of_too_wide hspells hop hsel hval]
      rfl
    case none =>
      rintro ⟨hfield, hrange⟩
      obtain ⟨v, hv⟩ := resultOfInstr_of_no_error hspells hfield hrange
      rw [herr, hv]
      rfl

end Machine

end Sys2Proof

/-! ## 70_reset_and_hazards.md: the reset edge (R140)

What a reset edge leaves is `step_of_reset_edge`, and that nothing else clears STAT.ERR is the fall of the `err` port,
whose one cause `errPortRisesWithTheFirstError` gives. -/

namespace Sys2Proof.Machine

/-- A step that clears a nonzero STAT.ERR is a reset edge (70_reset_and_hazards.md R140): clearing ERR is the fall of
the `err` port (60_exceptions.md R127). -/
theorem reset_of_step_clears_err {s t : State} (hstep : step s = .next t) (hfault : s.err ≠ .none)
    (hclear : t.err = .none) : ∃ e, s.edges.head? = some e ∧ e.rstN = false := by
  obtain ⟨-, -, -, hfalls⟩ := errPortRisesWithTheFirstError
  have hhigh : s.outputs.err = true := State.flt_eq_true.mpr hfault
  have hlow : t.outputs.err = false := State.flt_eq_false.mpr hclear
  exact hfalls s t hstep hhigh hlow

/-- Settles O14: the state after a reset edge is the reset state with the edges to come (`step_of_reset_edge`), so a
second reset edge gives that state again. -/
theorem resetEdgeClearsBothRegisters : Obligations.ResetEdgeClearsBothRegisters := by
  refine ⟨fun s e rest hedges hrst => ?reset_edge, fun _ _ => reset_of_step_clears_err⟩
  case reset_edge =>
    exact ⟨{ State.reset with edges := rest }, step_of_reset_edge hedges hrst, rfl, rfl, rfl, rfl, rfl, rfl,
      fun _ _ => step_of_reset_edge (s := { State.reset with edges := rest })⟩

end Sys2Proof.Machine

/-! ## 30_encoding.md: encoding and decoding undo each other, and the assembler's operands (R62 to R67, R70 to R72)

The layer of facts the statements need: the operand fields read back from a word built in its format, that a command's
own word spells it (`spelledBy_encode`) and no other word does (`encode_of_spelledBy`), and what the assembler does with
a line that passes its check and with any other. -/

namespace Sys2Proof

section Formats

variable (op : BitVec 3)

theorem wordField_formatF (v : FieldValue) (f : FieldSel) (w : ConfigWord) : wordField (formatF op v f w) = w := by
  apply BitVec.eq_of_toNat_eq
  rw [wordField_toNat, formatF_toNat]
  omega

theorem fselField_formatF (v : FieldValue) (f : FieldSel) (w : ConfigWord) : fselField (formatF op v f w) = f := by
  have hbits : (fselField (formatF op v f w)).bits = f.bits := by
    apply BitVec.eq_of_toNat_eq
    rw [fselField_bits_toNat, formatF_toNat]
    omega
  rw [← FieldSel.ofBits_bits (fselField _), hbits, FieldSel.ofBits_bits]

theorem valField_formatF (v : FieldValue) (f : FieldSel) (w : ConfigWord) : valField (formatF op v f w) = v := by
  apply BitVec.eq_of_toNat_eq
  rw [valField_toNat, formatF_toNat]
  omega

theorem stepsField_formatS (n : StepCount) : stepsField (formatS op n) = n := by
  apply BitVec.eq_of_toNat_eq
  rw [stepsField_toNat, formatS_toNat]
  omega

theorem centerField_formatA (center raw : RawAngle) : centerField (formatA op center raw) = center := by
  apply BitVec.eq_of_toNat_eq
  rw [centerField_toNat, formatA_toNat]
  omega

theorem rawField_formatA (center raw : RawAngle) : rawField (formatA op center raw) = raw := by
  apply BitVec.eq_of_toNat_eq
  rw [rawField_toNat, formatA_toNat]
  omega

end Formats

section EncodedNumbers

variable (fsel : FieldSel) (word : ConfigWord)

theorem encode_getf_toNat :
    (encode (.getf fsel word)).toNat = 1 * 2 ^ 29 + fsel.bits.toNat * 2 ^ 16 + word.toNat := by
  simp [encode, formatF_toNat]

theorem encode_setf_toNat (val : FieldValue) :
    (encode (.setf val fsel word)).toNat =
      2 * 2 ^ 29 + val.toNat * 2 ^ 18 + fsel.bits.toNat * 2 ^ 16 + word.toNat := by
  simp [encode, formatF_toNat]

theorem encode_mask_toNat : (encode (.mask fsel)).toNat = 3 * 2 ^ 29 + fsel.bits.toNat * 2 ^ 16 := by
  simp [encode, formatF_toNat]

theorem encode_llm_toNat : (encode (.llm word)).toNat = 4 * 2 ^ 29 + word.toNat := by
  simp [encode, formatF_toNat, FieldSel.bits]

theorem encode_s2d_toNat (steps : StepCount) : (encode (.s2d steps)).toNat = 5 * 2 ^ 29 + steps.toNat := by
  simp [encode, formatS_toNat]

theorem encode_rel_toNat (center raw : RawAngle) :
    (encode (.rel center raw)).toNat = 6 * 2 ^ 29 + center.toNat * 2 ^ 12 + raw.toNat := by
  simp [encode, formatA_toNat]

end EncodedNumbers

/-- A command's own word spells it (30_encoding.md R62 to R66). -/
theorem spelledBy_encode (i : Instr) : i.spelledBy (encode i) := by
  cases i with
  | getf fsel word =>
    refine ⟨?_, fselField_formatF .., wordField_formatF ..⟩
    rw [encode_getf_toNat]
    omega
  | setf val fsel word =>
    refine ⟨?_, valField_formatF .., fselField_formatF .., wordField_formatF ..⟩
    rw [encode_setf_toNat]
    omega
  | mask fsel =>
    refine ⟨?_, fselField_formatF ..⟩
    rw [encode_mask_toNat]
    omega
  | llm word =>
    refine ⟨?_, wordField_formatF ..⟩
    rw [encode_llm_toNat]
    omega
  | s2d steps =>
    refine ⟨?_, stepsField_formatS ..⟩
    rw [encode_s2d_toNat]
    omega
  | rel center raw =>
    refine ⟨?_, centerField_formatA .., rawField_formatA ..⟩
    rw [encode_rel_toNat]
    omega

/-- A word that spells a command is the command's own word: its bits outside the operands are fixed, and the operands
are all the others (30_encoding.md R67, R70). -/
theorem encode_of_spelledBy {c : Word} {i : Instr} (h : i.spelledBy c) : encode i = c := by
  apply BitVec.eq_of_toNat_eq
  cases i with
  | getf fsel word =>
    obtain ⟨hhigh, rfl, rfl⟩ := h
    rw [encode_getf_toNat, fselField_bits_toNat, wordField_toNat]
    omega
  | setf val fsel word =>
    obtain ⟨hhigh, rfl, rfl, rfl⟩ := h
    rw [encode_setf_toNat, valField_toNat, fselField_bits_toNat, wordField_toNat]
    omega
  | mask fsel =>
    obtain ⟨⟨hhigh, hword⟩, rfl⟩ := h
    rw [encode_mask_toNat, fselField_bits_toNat]
    omega
  | llm word =>
    obtain ⟨hhigh, rfl⟩ := h
    rw [encode_llm_toNat, wordField_toNat]
    omega
  | s2d steps =>
    obtain ⟨hhigh, rfl⟩ := h
    rw [encode_s2d_toNat, stepsField_toNat]
    omega
  | rel center raw =>
    obtain ⟨hhigh, rfl, rfl⟩ := h
    rw [encode_rel_toNat, centerField_toNat, rawField_toNat]
    omega

/-- Settles O2: a command's own word spells it (`spelledBy_encode`), and a word decodes to what it spells. -/
theorem decodeOfEncodeIsTheCommand : Obligations.DecodeOfEncodeIsTheCommand :=
  fun i => decode_of_spelledBy (spelledBy_encode i)

/-- Settles O3: a word that decodes spells its command, and only the command's own word does (`encode_of_spelledBy`). -/
theorem encodeOfDecodeIsTheWord : Obligations.EncodeOfDecodeIsTheWord :=
  fun _ _ hdec => encode_of_spelledBy (spelledBy_of_decode hdec)

/-! ### The assembler -/

section Assembler

variable {l : AsmLine}

theorem AsmLine.assemble_of_wf (h : l.expand.wf = true) : l.assemble = .ok l.expand.command := if_pos h

theorem AsmLine.assemble_of_not_wf (h : ¬ l.expand.wf = true) : l.assemble = .error .tooWide := if_neg h

end Assembler

/-- A field number that is accepted becomes FSEL (30_encoding.md R72). -/
theorem AsmField.number_selector_bits {n : Nat} (h : n ≤ 3) : (AsmField.number n).selector.bits.toNat = n := by
  rw [AsmField.selector, FieldSel.bits_ofBits, BitVec.toNat_ofNat]
  omega

theorem AsmField.number_wf_iff {n : Nat} : (AsmField.number n).wf = true ↔ n ≤ 3 := decide_eq_true_iff

/-- A written number that fits an operand is not cut (30_encoding.md R72). -/
theorem toNat_ofNat_of_le_max {w n : Nat} (h : n ≤ 2 ^ w - 1) : (BitVec.ofNat w n).toNat = n := by
  have hpos := Nat.two_pow_pos w
  rw [BitVec.toNat_ofNat, Nat.mod_eq_of_lt (by omega)]

/-- Settles O9: the check of each line form is the bound on its operands, a line that passes it assembles to its
command, whose operands are the written numbers by `toNat_ofNat_of_le_max`, and any other is refused. -/
theorem assemblerKeepsTheWrittenNumbers : Obligations.AssemblerKeepsTheWrittenNumbers := by
  refine ⟨?getf, ?setf, ?mask, ?llm, ?s2d, ?rel, fun _ => AsmField.number_wf_iff,
    fun _ => AsmField.number_selector_bits, fun _ => ⟨rfl, rfl⟩⟩
  case getf =>
    intro w f
    have hwf : (AsmLine.getf w f).expand.wf = true ↔ f.wf = true ∧ w ≤ 0xFFFF := by
      simp [AsmLine.expand, AsmLine.wf, and_comm]
    rw [← hwf]
    refine ⟨fun h => ?_, AsmLine.assemble_of_not_wf⟩
    obtain ⟨-, hw⟩ := hwf.mp h
    exact ⟨_, toNat_ofNat_of_le_max hw, AsmLine.assemble_of_wf h⟩
  case setf =>
    intro w v f
    have hwf : (AsmLine.setf w f v).expand.wf = true ↔ f.wf = true ∧ w ≤ 0xFFFF ∧ v ≤ 7 := by
      simp [AsmLine.expand, AsmLine.wf, and_comm, and_assoc]
    rw [← hwf]
    refine ⟨fun h => ?_, AsmLine.assemble_of_not_wf⟩
    obtain ⟨-, hw, hv⟩ := hwf.mp h
    exact ⟨_, _, toNat_ofNat_of_le_max hw, toNat_ofNat_of_le_max hv, AsmLine.assemble_of_wf h⟩
  case mask => exact fun f => ⟨AsmLine.assemble_of_wf (l := .mask f), AsmLine.assemble_of_not_wf (l := .mask f)⟩
  case llm =>
    intro w
    have hwf : (AsmLine.llm w).expand.wf = true ↔ w ≤ 0xFFFF := decide_eq_true_iff
    rw [← hwf]
    exact ⟨fun h => ⟨_, toNat_ofNat_of_le_max (hwf.mp h), AsmLine.assemble_of_wf h⟩, AsmLine.assemble_of_not_wf⟩
  case s2d =>
    intro n
    have hwf : (AsmLine.s2d n).expand.wf = true ↔ n ≤ 8191 := decide_eq_true_iff
    rw [← hwf]
    exact ⟨fun h => ⟨_, toNat_ofNat_of_le_max (hwf.mp h), AsmLine.assemble_of_wf h⟩, AsmLine.assemble_of_not_wf⟩
  case rel =>
    intro r k
    have hwf : (AsmLine.rel r k).expand.wf = true ↔ r ≤ 4095 ∧ k ≤ 4095 := by
      simp [AsmLine.expand, AsmLine.wf]
    rw [← hwf]
    refine ⟨fun h => ?_, AsmLine.assemble_of_not_wf⟩
    obtain ⟨hr, hk⟩ := hwf.mp h
    exact ⟨_, _, toNat_ofNat_of_le_max hr, toNat_ofNat_of_le_max hk, AsmLine.assemble_of_wf h⟩

end Sys2Proof

/-! ## 20_memory.md: the step over numbers, totality, what changes RES, and the outputs (R41, R42, R46)

The layer of facts the statements need: the reference's step by mode, that every completion and so every edge has a next
state, and a run cut in two. Which four things an edge can do is `step_cases`. -/

namespace Sys2Proof.Machine

/-! ### The reference's step -/

section ReferenceStep

variable {l res err c : Nat}

/-- In FAULT the reference's step changes neither number (60_exceptions.md R124). -/
theorem reference_step_in_fault (h : err ≠ 0) : Reference.step l res err c = (res, err) := if_pos h

theorem reference_step_of_ok {v : Nat} (h : Reference.result l c = .ok v) :
    Reference.step l res 0 c = (v, 0) := by
  simp only [Reference.step, h, ne_eq, not_true_eq_false, if_false]

theorem reference_step_of_error {e : Nat} (h : Reference.result l c = .error e) :
    Reference.step l res 0 c = (res, e) := by
  simp only [Reference.step, h, ne_eq, not_true_eq_false, if_false]

end ReferenceStep

theorem ErrCode.bits_toNat_eq_zero {e : ErrCode} : e.bits.toNat = 0 ↔ e = .none := by
  cases e <;> decide

theorem asNumbers_eq_ok {r : Except Cause Word} {n : Nat} :
    asNumbers r = .ok n ↔ ∃ v, r = .ok v ∧ v.toNat = n := by
  cases r <;> simp [asNumbers]

/-- The reference has a result exactly for the words that have one on the machine, and the same number. -/
theorem reference_result_eq_ok_iff {c : Word} {n : Nat} :
    Reference.result Config.llmFth.toNat c.toNat = .ok n ↔ ∃ v, resultOfWord c = .ok v ∧ v.toNat = n := by
  rw [reference_result_eq_asNumbers, asNumbers_eq_ok]

/-- Settles O18: in FAULT neither side changes anything; in RUN both do what the word asks for, which the reference
computes by `reference_result_eq_asNumbers`. -/
theorem commandStepRefinesArithmeticReference : Obligations.CommandStepRefinesArithmeticReference := by
  intro s c rest hedges
  by_cases herr : s.err = .none
  · have haccepts : s.accepts c rest := ⟨State.mode_eq_run.mpr herr, hedges⟩
    rw [ErrCode.bits_toNat_eq_zero.mpr herr]
    cases hres : resultOfWord c with
    | ok v =>
      refine ⟨_, step_of_accepts_ok haccepts hres, rfl, ?_⟩
      rw [reference_step_of_ok (reference_result_eq_ok_iff.mpr ⟨v, hres, rfl⟩), ErrCode.bits_toNat_eq_zero.mpr herr]
    | error e =>
      refine ⟨_, step_of_accepts_error haccepts hres, rfl, ?_⟩
      rw [reference_step_of_error (reference_result_eq_error_iff.mpr ⟨e, hres, rfl⟩)]
  · refine ⟨_, step_of_command_edge_in_fault hedges (State.mode_eq_fault.mpr herr), rfl, ?_⟩
    rw [reference_step_in_fault (mt ErrCode.bits_toNat_eq_zero.mp herr)]

/-! ### Every edge has a next state -/

/-- Settles O16: an edge resets, goes by, or is a completion, and each has a next state. -/
theorem everyEdgeHasANextState : Obligations.EveryEdgeHasANextState := by
  intro s
  cases hedges : s.edges with
  | nil => exact ⟨_, step_of_no_edge hedges⟩
  | cons e rest =>
    rw [step_of_edges hedges]
    cases e.action with
    | reset => exact ⟨_, rfl⟩
    | idle => exact ⟨_, rfl⟩
    | command c =>
      obtain ⟨-, h⟩ | ⟨v, -, -, h⟩ | ⟨e, -, -, h⟩ := complete_cases (resultOfWord c) { s with edges := rest }
      · exact ⟨_, h⟩
      · exact ⟨_, h⟩
      · exact ⟨_, h⟩

/-- Settles O12: with no edge listed the edge only goes by. -/
theorem unlistedEdgesAreIdle : Obligations.UnlistedEdgesAreIdle := by
  intro s hedges
  rw [step_of_no_edge hedges, ← hedges]

/-- Settles O17: each of the four things an edge can do takes the edge off the list. -/
theorem eachStepUsesOneEdge : Obligations.EachStepUsesOneEdge := by
  intro s t hstep
  obtain ⟨_, _, hedges, -, rfl⟩ | rfl | ⟨_, _, _, ⟨-, hedges⟩, -, rfl⟩ | ⟨_, _, _, ⟨-, hedges⟩, -, rfl⟩ :=
    step_cases hstep
  · rw [hedges, List.tail_cons]
  · rfl
  · rw [hedges, List.tail_cons]
  · rw [hedges, List.tail_cons]

/-- Settles O19: of the four things an edge can do only a reset and a written result change RES. -/
theorem resultStaysUntilTheNextCompletion : Obligations.ResultStaysUntilTheNextCompletion := by
  intro s t hstep hres
  obtain ⟨e, rest, hedges, hrst, rfl⟩ | rfl | ⟨c, rest, v, ⟨hrun, hedges⟩, hv, rfl⟩ | ⟨_, _, _, -, -, rfl⟩ :=
    step_cases hstep
  · exact ⟨e, rest, hedges, .inl ⟨hrst, rfl⟩⟩
  · exact absurd rfl hres
  · exact ⟨_, rest, hedges, .inr ⟨rfl, rfl, hrun, rfl, reference_result_eq_ok_iff.mpr ⟨v, hv, rfl⟩⟩⟩
  · exact absurd rfl hres

/-! ### A presented table word -/

/-- The command read from a 32-bit table word is the one its command word decodes to (log 11). -/
theorem decode_of_decodeTableWord {w : Nat} {i : Instr} (h : decodeTableWord 32 w = some i) :
    decode (BitVec.ofNat 32 (w % 2 ^ 32)) = .ok i := by
  rw [decodeTableWord, if_pos (le_refl 32)] at h
  cases hdec : decode (BitVec.ofNat 32 (w % 2 ^ 32)) with
  | ok j =>
    rw [hdec] at h
    rw [Option.some.inj h]
  | error d =>
    rw [hdec] at h
    cases h

/-- Settles O13: the presented word is the next edge's, and it decodes to the command read from the table word. -/
theorem presentedTableWordRunsNext : Obligations.PresentedTableWordRunsNext :=
  fun _ _ _ h => step_of_decode_ok (State.present_edges _ _) (decode_of_decodeTableWord h)

/-! ### Runs and the outputs -/

/-- A run of j + k edges is a run of j and then one of k. -/
theorem run_add (M : Host.Core) {j k : Nat} {s t : M.State} (h : M.run j s = .next t) :
    M.run (j + k) s = M.run k t := by
  induction j generalizing s with
  | zero =>
    rw [Nat.zero_add, Host.Outcome.next.inj h]
  | succ j ih =>
    cases hstep : M.step s with
    | next u =>
      rw [run_succ M hstep] at h
      rw [Nat.succ_add, run_succ M hstep, ih h]
    | fault r | refused r =>
      rw [Host.Core.run, hstep] at h
      cases h

theorem cycleOutputs_succ {k : Nat} {s t : State} (h : step s = .next t) :
    cycleOutputs (k + 1) s = s.outputs :: cycleOutputs k t := by
  simp only [cycleOutputs, h]

/-- Settles O20: by induction on the cycles; each has one more edge before it in the run and in the list. -/
theorem outputsShowTheStateBeforeTheEdge : Obligations.OutputsShowTheStateBeforeTheEdge := by
  intro k j s hjk
  induction k generalizing j s with
  | zero => exact absurd hjk (Nat.not_lt_zero j)
  | succ k ih =>
    obtain ⟨t, hstep⟩ := everyEdgeHasANextState s
    rw [cycleOutputs_succ hstep]
    cases j with
    | zero => exact ⟨s, rfl, rfl⟩
    | succ j =>
      rw [core_run_succ hstep, List.getElem?_cons_succ]
      exact ih j t (Nat.lt_of_succ_lt_succ hjk)

end Sys2Proof.Machine

/-! ## 10_state.md: what a command may change and what RES can hold (R21, R25, R26)

The layer of facts the statements need: that no command has an effect in FAULT, when a command has no result, and that a
state with a codec result or a DEGQ value in RES meets the invariant. -/

namespace Sys2Proof.Machine

/-! ### What a command may change, and the modes -/

/-- In FAULT no command has an effect (60_exceptions.md R124). -/
theorem exec_in_fault {s : State} (h : s.err ≠ .none) (i : Instr) : exec i s = .next s := by
  rw [exec_eq_complete, complete_in_fault h]

/-- Settles O45: a command is a completion, and a completion has no effect, writes RES or enters an error
(`complete_cases`). -/
theorem commandFrame : Obligations.CommandFrame := by
  intro i s
  rw [exec_eq_complete, State.mode_eq_run, State.mode_eq_fault]
  obtain ⟨herr, h⟩ | ⟨v, herr, -, h⟩ | ⟨c, herr, -, h⟩ := complete_cases (resultOfInstr i) s
  · exact ⟨s, h, rfl, fun _ => rfl, fun hrun => absurd hrun herr⟩
  · exact ⟨_, h, rfl, absurd herr, fun hrun => .inl ⟨hrun, rfl⟩⟩
  · exact ⟨_, h, rfl, absurd herr, fun _ => .inr ⟨c.code_ne_none, rfl⟩⟩

theorem State.resultOf_eq_none {s : State} {i : Instr} :
    s.resultOf i = none ↔ s.mode = .run → ∃ c, resultOfInstr i = .error c := by
  rw [Option.eq_none_iff_forall_ne_some]
  simp only [ne_eq, State.resultOf_eq_some, not_and]
  cases resultOfInstr i <;> simp

/-- Whether a command has a result, and which, depends on the mode alone (10_state.md R26). -/
theorem State.resultOf_congr {s s' : State} (h : s.err = s'.err) (i : Instr) : s.resultOf i = s'.resultOf i := by
  refine Option.ext fun r => ?_
  rw [State.resultOf_eq_some, State.resultOf_eq_some, State.mode_eq_run, State.mode_eq_run, h]

/-- Settles O46: what a command computes is said of its operands alone (`resultOfInstr`), and whether it takes effect of
ERR alone. -/
theorem noCommandReadsRes : Obligations.NoCommandReadsRes := by
  intro i s s' herr
  by_cases hrun : s.mode = .run
  · have hrun' : s'.mode = .run := State.mode_eq_run.mpr (herr ▸ State.mode_eq_run.mp hrun)
    cases hres : resultOfInstr i with
    | ok v =>
      exact ⟨_, _, exec_of_ok_in_run hrun hres, exec_of_ok_in_run hrun' hres, herr, State.resultOf_congr herr i,
        .inl ⟨State.resultOf_eq_some.mpr ⟨hrun, hres⟩, rfl⟩⟩
    | error c =>
      exact ⟨_, _, exec_of_error_in_run hrun hres, exec_of_error_in_run hrun' hres, rfl, State.resultOf_congr herr i,
        .inr ⟨State.resultOf_eq_none.mpr fun _ => ⟨c, hres⟩, rfl, rfl⟩⟩
  · have hfault : s.err ≠ .none := mt State.mode_eq_run.mpr hrun
    exact ⟨s, s', exec_in_fault hfault i, exec_in_fault (herr ▸ hfault) i, herr, State.resultOf_congr herr i,
      .inr ⟨State.resultOf_eq_none.mpr fun h => absurd h hrun, rfl, rfl⟩⟩

/-- Settles O22: the mode is read off ERR, and leaving FAULT clears ERR, which only a reset does
(`reset_of_step_clears_err`). -/
theorem modeIsReadOffTheErrorCode : Obligations.ModeIsReadOffTheErrorCode := by
  refine ⟨fun s => ⟨?run, ?fault⟩, fun i s hfault => exec_in_fault (State.mode_eq_fault.mp hfault) i, ?leaves⟩
  case run => rw [State.mode_eq_run, ErrCode.bits_eq_zero]
  case fault => rw [State.mode_eq_fault, ne_eq, ne_eq, ErrCode.bits_eq_zero]
  case leaves =>
    exact fun s t hstep hfault hrun =>
      reset_of_step_clears_err hstep (State.mode_eq_fault.mp hfault) (State.mode_eq_run.mp hrun)

/-! ### What RES can hold -/

section ResHoldsResult

variable {s : State}

/-- A codec result is in [15:0] (10_state.md R21). -/
theorem resHoldsResult_of_codec {w : ConfigWord} (h : s.res = w.setWidth 32) : s.resHoldsResult := by
  left
  rw [h, BitVec.toNat_setWidth_of_le (by decide)]
  exact w.isLt

/-- A DEGQ value of REL's or S2D's step counts is 45 times the steps (41_angle.md R100). -/
theorem resHoldsResult_of_degq {k : Int} (hlow : -2048 ≤ k) (hhigh : k ≤ 8191) (h : s.res = degq k) :
    s.resHoldsResult := by
  right
  refine ⟨k, hlow, hhigh, ?_⟩
  rw [h, degq_toInt (by omega) (by omega)]

/-- What a command computes is such a value. -/
theorem resHoldsResult_of_resultOfInstr {i : Instr} (h : resultOfInstr i = .ok s.res) : s.resHoldsResult := by
  cases i with
  | getf fsel word =>
    cases fsel with
    | named f => exact resHoldsResult_of_codec (Except.ok.inj h).symm
    | reserved => cases h
  | setf val fsel word =>
    cases fsel with
    | named f => exact resHoldsResult_of_codec (setfResult_eq_ok.mp h).2.symm
    | reserved => cases h
  | mask fsel =>
    cases fsel with
    | named f => exact resHoldsResult_of_codec (Except.ok.inj h).symm
    | reserved => cases h
  | llm word => exact resHoldsResult_of_codec (Except.ok.inj h).symm
  | s2d steps =>
    have hsteps := stepCount_le steps
    exact resHoldsResult_of_degq (by omega) (by omega) (Except.ok.inj h).symm
  | rel center raw =>
    have hbounds := displacement_bounds raw center
    exact resHoldsResult_of_degq (by omega) (by omega) (Except.ok.inj h).symm

/-- So is what a word has for a result. -/
theorem resHoldsResult_of_resultOfWord {c : Word} (h : resultOfWord c = .ok s.res) : s.resHoldsResult := by
  cases hdec : decode c with
  | ok i => exact resHoldsResult_of_resultOfInstr ((resultOfWord_of_decode_ok hdec).symm.trans h)
  | error d => cases (resultOfWord_of_decode_error hdec).symm.trans h

end ResHoldsResult

/-- Settles O48: RES is 0 at reset. -/
theorem resetResIsAResult : Obligations.ResetResIsAResult := resHoldsResult_of_codec (w := 0) rfl

/-- Settles O47: of the four things an edge can do (`step_cases`) two leave RES, a reset writes 0, and a word in RUN
writes what its command computes. -/
theorem stepKeepsResAResult : Obligations.StepKeepsResAResult := by
  intro s t hs hstep
  obtain ⟨_, _, -, -, rfl⟩ | rfl | ⟨_, _, _, -, hres, rfl⟩ | ⟨_, _, _, -, -, rfl⟩ := step_cases hstep
  · exact resetResIsAResult
  · exact hs
  · exact resHoldsResult_of_resultOfWord hres
  · exact hs

end Sys2Proof.Machine

/-! ## 70_reset_and_hazards.md: runs of commands (R147; 60_exceptions.md R123, R124)

The layer of facts the statements need: a run of words that all have a result ends in RUN with the last one's result
(`run_of_results`), and a run whose first error is known ends with it (`run_to_first_error`). Every list of words is of
one of the two kinds (`all_results_or_first_error`). -/

namespace Sys2Proof.Machine

/-- r is in RES after the words have their results one after another, where v was in it before. -/
def ResultAfter (v : Word) (cs : List Word) (r : Word) : Prop :=
  (cs = [] → r = v) ∧ ∀ c, cs.getLast? = some c → resultOfWord c = .ok r

theorem resultAfter_nil (v : Word) : ResultAfter v [] v := ⟨fun _ => rfl, fun _ h => nomatch h⟩

theorem resultAfter_concat {v r : Word} {cs : List Word} {c : Word} (h : resultOfWord c = .ok r) :
    ResultAfter v (cs ++ [c]) r := by
  refine ⟨fun hnil => absurd hnil (List.concat_ne_nil c cs), fun c' hc' => ?_⟩
  rw [List.getLast?_concat] at hc'
  rwa [← Option.some.inj hc']

/-- From RUN, words that all have a result only use up their edges and leave the last one's result in RES. -/
theorem run_of_results {cs : List Word} {rest : List EdgeInput} {s : State} (hrun : s.mode = .run)
    (hedges : s.edges = cs.map .ofCommand ++ rest) (hok : ∀ c ∈ cs, ∃ v, resultOfWord c = .ok v) :
    ∃ r, Host.Core.run core cs.length s = .next { s with res := r, edges := rest } ∧ ResultAfter s.res cs r := by
  induction cs using List.reverseRecOn generalizing rest with
  | nil =>
    obtain rfl : s.edges = rest := hedges
    exact ⟨s.res, rfl, resultAfter_nil s.res⟩
  | append_singleton cs c ih =>
    rw [List.map_append, List.append_assoc] at hedges
    obtain ⟨r, hr, -⟩ := ih hedges fun b hb => hok b (List.mem_append_left _ hb)
    obtain ⟨v, hv⟩ := hok c (List.mem_append_right _ (List.mem_singleton_self c))
    have haccepts : ({ s with res := r, edges := .ofCommand c :: rest } : State).accepts c rest := ⟨hrun, rfl⟩
    refine ⟨v, ?_, resultAfter_concat hv⟩
    rw [List.length_append, run_add core hr]
    exact core_run_succ (step_of_accepts_ok haccepts hv)

/-- From a faulted state words only use up their edges (60_exceptions.md R124). -/
theorem run_of_words_in_fault {cs : List Word} {s : State} (hfault : s.err ≠ .none)
    (hedges : s.edges = cs.map .ofCommand) :
    Host.Core.run core cs.length s = .next { s with edges := [] } := by
  have hlen : s.edges.length = cs.length := by rw [hedges, List.length_map]
  have hrst : s.noResetWithin cs.length := by
    intro e he
    have he' := List.mem_of_mem_take he
    rw [hedges] at he'
    obtain ⟨c, -, rfl⟩ := List.mem_map.mp he'
    rfl
  rw [run_in_fault hfault hlen.ge hrst, ← hlen, List.drop_length]

/-- From RUN, a run whose words have results up to one that raises an error ends with that error and with the result
before it (60_exceptions.md R123, R124). -/
theorem run_to_first_error {before after : List Word} {c : Word} {e : Cause} {s : State} (hrun : s.mode = .run)
    (hok : ∀ b ∈ before, ∃ v, resultOfWord b = .ok v) (herr : resultOfWord c = .error e) :
    ∃ r, Host.Core.run core (before ++ c :: after).length (s.presentAll (before ++ c :: after)) =
        .next { res := r, err := e.code, edges := [] } ∧ ResultAfter s.res before r := by
  obtain ⟨r, hr, hres⟩ := run_of_results (s := s.presentAll (before ++ c :: after)) hrun List.map_append hok
  have haccepts : ({ s with res := r, edges := (c :: after).map .ofCommand } : State).accepts c
      (after.map .ofCommand) := ⟨hrun, rfl⟩
  refine ⟨r, ?_, hres⟩
  rw [List.length_append, run_add core hr]
  exact (core_run_succ (step_of_accepts_error haccepts herr)).trans (run_of_words_in_fault e.code_ne_none rfl)

/-- Either every word of a list has a result, or there is a first one that raises an error. -/
theorem all_results_or_first_error (cs : List Word) :
    (∀ c ∈ cs, ∃ v, resultOfWord c = .ok v) ∨
    ∃ before c e after, cs = before ++ c :: after ∧ (∀ b ∈ before, ∃ v, resultOfWord b = .ok v) ∧
      resultOfWord c = .error e := by
  induction cs with
  | nil => exact .inl (List.forall_mem_nil _)
  | cons c cs ih =>
    cases hres : resultOfWord c with
    | error e => exact .inr ⟨[], c, e, cs, rfl, List.forall_mem_nil _, hres⟩
    | ok v =>
      obtain hok | ⟨before, c', e, after, rfl, hok, herr⟩ := ih
      · exact .inl (List.forall_mem_cons.mpr ⟨⟨v, hres⟩, hok⟩)
      · exact .inr ⟨c :: before, c', e, after, rfl, List.forall_mem_cons.mpr ⟨⟨v, hres⟩, hok⟩, herr⟩

/-- A word has a result by the arithmetic reference exactly when it has one on the machine. -/
theorem reference_has_result_iff {c : Word} :
    (∃ n, Reference.result Config.llmFth.toNat c.toNat = .ok n) ↔ ∃ v, resultOfWord c = .ok v := by
  simp only [reference_result_eq_ok_iff, exists_comm (α := Nat), exists_and_left, exists_eq', and_true]

theorem reference_result_of_ok {c v : Word} (h : resultOfWord c = .ok v) :
    Reference.result Config.llmFth.toNat c.toNat = .ok v.toNat :=
  reference_result_eq_ok_iff.mpr ⟨v, h, rfl⟩

/-- Settles O50: `run_to_first_error`, with the reference's results and errors for the machine's. -/
theorem faultedRunKeepsTheFirstError : Obligations.FaultedRunKeepsTheFirstError := by
  intro before after c n s hrun hok href
  obtain ⟨e, herr, hcode⟩ := reference_result_eq_error_iff.mp href
  simp only [reference_has_result_iff] at hok
  obtain ⟨r, hr, hnil, hlast⟩ := run_to_first_error (after := after) hrun hok herr
  exact ⟨_, hr, hcode, State.flt_eq_true.mpr e.code_ne_none, hnil, fun b hb => reference_result_of_ok (hlast b hb)⟩

/-- Settles O49: if every word has a result the run ends in RUN with the last one's (`run_of_results`); else it ends
with the code of the first error (`run_to_first_error`), which is not 0. -/
theorem cleanRunCompletedEveryCommand : Obligations.CleanRunCompletedEveryCommand := by
  intro cs s hrun
  simp only [reference_has_result_iff]
  obtain hok | ⟨before, c, e, after, rfl, hok, herr⟩ := all_results_or_first_error cs
  · obtain ⟨r, hr, -, hlast⟩ := run_of_results (s := s.presentAll cs) hrun (List.append_nil _).symm hok
    have hnone : s.err = .none := State.mode_eq_run.mp hrun
    refine ⟨_, hr, rfl, iff_of_true hnone hok, fun _ => ⟨?_, fun c hc => reference_result_of_ok (hlast c hc)⟩⟩
    simp [State.usableResult, State.flt, hnone]
  · obtain ⟨r, hr, -⟩ := run_to_first_error (after := after) hrun hok herr
    refine ⟨_, hr, rfl, iff_of_false e.code_ne_none fun hall => ?_, fun h => absurd h e.code_ne_none⟩
    obtain ⟨v, hv⟩ := hall c (by simp)
    cases herr.symm.trans hv

end Sys2Proof.Machine

/-! ## 40_codec.md and 41_angle.md: the codec for every table (R80, R86), and DEGQ as real numbers (R100, R108) -/

namespace Sys2Proof

/-- A table that the check takes is well formed (00_scope.md R8). -/
theorem FieldTable.wf_of_checked {t : FieldTable} (h : t.checked = some t) : t.wf = true := by
  by_contra hwf
  rw [FieldTable.checked, if_neg hwf] at h
  cases h

/-- Settles O35: the laws are the operations' own, for descriptors that lie inside the word and share no bit. -/
theorem codecLawsForEveryCheckedTable : Obligations.CodecLawsForEveryCheckedTable := by
  intro t ht f g v u w hv
  obtain ⟨hinside, hdisjoint⟩ := FieldTable.wf_iff.mp (FieldTable.wf_of_checked ht)
  have hin : (t.get f).off + (t.get f).width ≤ 16 := of_decide_eq_true (hinside f)
  exact ⟨FieldDescr.extract_insert_same hin hv w, FieldDescr.insert_insert_same hv w,
    fun hne => FieldDescr.extract_insert_of_disjoint (hdisjoint g f hne) hv w, FieldDescr.insert_and_keep hv w,
    fun hw => FieldDescr.insert_extract_self hw hin w, fun hu => FieldDescr.insert_insert_same hu w,
    fun hne hu => FieldDescr.insert_comm (hdisjoint f g hne.symm) hv hu w⟩

/-- Settles O28: closed facts, each evaluated. -/
theorem fieldTableValues : Obligations.FieldTableValues := by
  unfold Obligations.FieldTableValues
  decide

/-- A step count's degrees are 45 times the steps with the exponent -9, so binary64 holds them (41_angle.md R108). -/
theorem isBinary64_degrees_of_steps {n : ℤ} (h : |n| ≤ 8191) : Reference.isBinary64 (n * 360 / 4096) := by
  refine ⟨45 * n, -9, ?_, by decide, by decide, ?_⟩
  · rw [abs_mul, abs_of_pos (by decide)]
    omega
  · push_cast
    ring

/-- What the rules say of a result of S2D or REL: its degrees are the real number steps * 360 / 4096, they are the word
over 512, and binary64 holds them (41_angle.md R100, R108). -/
theorem degrees_degq_exact {n : ℤ} (h : |n| ≤ 8191) :
    degrees (degq n) = n * 360 / 4096 ∧ degrees (degq n) = ((degq n).toInt : ℚ) / 512 ∧
      Reference.isBinary64 (degrees (degq n)) := by
  obtain ⟨hlow, hhigh⟩ := abs_le.mp h
  have hdegrees : degrees (degq n) = n * 360 / 4096 := degrees_degq (by omega) (by omega)
  refine ⟨hdegrees, ?_, ?_⟩
  · rw [degrees, Config.degFrac]
    norm_num
  · rw [hdegrees]
    exact isBinary64_degrees_of_steps h

/-- Settles O44: S2D and REL write the DEGQ word of at most 8191 steps either way (`degrees_degq_exact`); the
constant is the degrees of one step. -/
theorem degreesAreTheRealNumbers : Obligations.DegreesAreTheRealNumbers := by
  refine ⟨?s2d, ?rel, by norm_num, ?constant, ?product⟩
  case s2d =>
    intro s n hrun
    have hn : |(n.toNat : ℤ)| ≤ 8191 := by
      rw [Nat.abs_cast]
      exact_mod_cast stepCount_le n
    exact ⟨_, Machine.exec_s2d_in_run hrun n, degrees_degq_exact hn⟩
  case rel =>
    intro s k r hrun
    obtain ⟨hlow, hhigh⟩ := displacement_bounds r k
    exact ⟨_, Machine.exec_rel_in_run hrun k r, degrees_degq_exact (abs_le.mpr ⟨by omega, by omega⟩)⟩
  case constant => simpa using isBinary64_degrees_of_steps (n := 1) (by decide)
  case product =>
    intro n hn
    rw [← mul_div_assoc]
    exact isBinary64_degrees_of_steps hn

end Sys2Proof
